-- ==== Sys2Proof/Word.lean ====
section
/-!
DEFINITION. The word types of the block: bytes, 16-bit words, and the index of a V register.
Widths are those of spec/00_scope.md R7 and 10_state.md R20.
-/
namespace Sys2Proof

/-- One memory cell or V register: 8 bits, unsigned (00_scope.md R7, R10). -/
abbrev Byte := BitVec 8

/-- I, PC, a stack slot and an instruction word: 16 bits (00_scope.md R7, 30_encoding.md R70). -/
abbrev Word := BitVec 16

/-- The index of a general register, V0 to VF (10_state.md R21). -/
abbrev Reg := Fin 16

/-- VF, the one flag register (10_state.md R23). -/
abbrev VF : Reg := 15

end Sys2Proof
end

