-- ==== Sys2Proof/WellFormed.lean ====
section
/-!
DEFINITION. Well-formed operands: the literal ranges of spec/30_encoding.md R78 (`Vx` is V0 to VF, `kk` 0..255,
`nnn` 0..4095, `n` 0..15). The operand types of Syntax.lean carry these ranges, so every `Instr` passes
(Laws/WellFormed.lean proves it); the four checks refuse the numbers that no operand may be.
-/
namespace Sys2Proof

/-- A register operand names one of V0 to VF (R78). -/
def regOperandOk (x : Nat) : Bool := x ≤ 15

/-- A byte literal is 0..255 (R78). -/
def byteOperandOk (kk : Nat) : Bool := kk ≤ 255

/-- An address literal is 0..4095 (R78). -/
def addrOperandOk (nnn : Nat) : Bool := nnn ≤ 4095

/-- A nibble literal is 0..15 (R78). -/
def nibbleOperandOk (n : Nat) : Bool := n ≤ 15

/-- Every operand of the instruction, read as a number, is in its range (R78). -/
def Instr.wellFormed : Instr → Bool
  | .cls | .ret => true
  | .jp nnn | .call nnn | .ldI nnn | .jpV0 nnn => addrOperandOk nnn.toNat
  | .seImm x kk | .sneImm x kk | .ldImm x kk | .addImm x kk | .rnd x kk =>
    regOperandOk x.val && byteOperandOk kk.toNat
  | .seReg x y | .ldReg x y | .orReg x y | .andReg x y | .xorReg x y | .addReg x y | .sub x y | .shr x y
  | .subn x y | .shl x y | .sneReg x y => regOperandOk x.val && regOperandOk y.val
  | .drw x y n => regOperandOk x.val && regOperandOk y.val && nibbleOperandOk n.toNat
  | .skp x | .sknp x | .ldVxDT x | .ldVxK x | .ldDTVx x | .ldSTVx x | .addI x | .ldF x | .ldB x | .ldMemVx x
  | .ldVxMem x => regOperandOk x.val

end Sys2Proof
end

