-- ==== Sys2Proof/Config.lean ====
section
/-!
DEFINITION. What the spec leaves to the implementation and fixes nowhere: the RAND draws of Cxkk
(spec/00_scope.md R8). The other open parameter, GLYPHS, has a default in the spec and is an argument of
`StateRecord.initializeWith` (Machine/HostInterface.lean); its default table is in Machine/Memory.lean.
-/
namespace Sys2Proof

/-- RAND (00_scope.md R8, 42_alu.md R155): the byte that draw number `k` gives. A free value: it has no body, so nothing
can be proved of any of its values, and what is proved holds for every draw. DESIGN CHOICE, log 2. -/
opaque Config.rand : Nat → Byte

end Sys2Proof
end

