-- ==== Sys2Proof/Machine/Memory.lean ====
section
/-!
DEFINITION. The memory of the block (spec/20_memory.md): 4096 bytes, held as a list of (address, byte) in one canonical form,
addresses strictly rising, none equal to what an unlisted address reads as. An unlisted address reads as `initialize` leaves it
with the default glyph set (70_reset_and_hazards.md R260, R261).
-/
namespace Sys2Proof.Machine

/-- The default GLYPHS, digits 0 to 7 (92_eei_decisions.md D11). PRESUMED: the spec's own default, from general knowledge; log 3. -/
def glyphBytesLow : List Byte :=
  [0xF0, 0x90, 0x90, 0x90, 0xF0] ++ [0x20, 0x60, 0x20, 0x20, 0x70] ++
  [0xF0, 0x10, 0xF0, 0x80, 0xF0] ++ [0xF0, 0x10, 0xF0, 0x10, 0xF0] ++
  [0x90, 0x90, 0xF0, 0x10, 0x10] ++ [0xF0, 0x80, 0xF0, 0x10, 0xF0] ++
  [0xF0, 0x80, 0xF0, 0x90, 0xF0] ++ [0xF0, 0x10, 0x20, 0x40, 0x40]

/-- The default GLYPHS, digits 8 to F (92_eei_decisions.md D11). PRESUMED, log 3. -/
def glyphBytesHigh : List Byte :=
  [0xF0, 0x90, 0xF0, 0x90, 0xF0] ++ [0xF0, 0x90, 0xF0, 0x10, 0xF0] ++
  [0xF0, 0x90, 0xF0, 0x90, 0x90] ++ [0xE0, 0x90, 0xE0, 0x90, 0xE0] ++
  [0xF0, 0x80, 0x80, 0x80, 0xF0] ++ [0xE0, 0x90, 0x90, 0x90, 0xE0] ++
  [0xF0, 0x80, 0xF0, 0x80, 0xF0] ++ [0xF0, 0x80, 0xF0, 0x80, 0x80]

/-- The 80 bytes of the default glyph set, the glyph of digit `d` at `5*d` (20_memory.md R59). PRESUMED, log 3. -/
def defaultGlyphs : List Byte := glyphBytesLow ++ glyphBytesHigh

/-- What an address that memory does not list reads as: the default glyph set at 0x000-0x04F, zero above (R59, R260). Log 4. -/
def unlistedByte (a : Nat) : Byte := defaultGlyphs.getD a 0

/-- Memory: the cells that differ from `unlistedByte`, by rising address. -/
abbrev Memory := List Host.Cell

/-- One more than the highest address (R50). -/
abbrev memSize : Nat := 0x1000

/-- The canonical form from address `lo` up: addresses strictly rising and valid, no entry equal to the unlisted byte. -/
def Memory.wfFrom : Nat → Memory → Bool
  | _, [] => true
  | lo, (a, b) :: m => decide (lo ≤ a) && decide (a < memSize) && decide (b ≠ unlistedByte a) && Memory.wfFrom (a + 1) m

/-- Memory is in its canonical form. -/
def Memory.wf (m : Memory) : Bool := Memory.wfFrom 0 m

/-- The byte at an address (20_memory.md R54 `MemRead8`); the range check stands in Ops.lean. -/
def Memory.read : Memory → Nat → Byte
  | [], a => unlistedByte a
  | (a', b) :: m, a => if a = a' then b else Memory.read m a

/-- The cells without those at address `a`. -/
def Memory.erase : Memory → Nat → Memory
  | [], _ => []
  | (a', b) :: m, a => if a = a' then Memory.erase m a else (a', b) :: Memory.erase m a

/-- The cell for byte `b` at `a`, if it is one to list, before the cells of `m` at other addresses. -/
def Memory.consCell (a : Nat) (b : Byte) (m : Memory) : Memory :=
  if b = unlistedByte a then m.erase a else (a, b) :: m.erase a

/-- Write one byte (20_memory.md R54). Writing what an unlisted address reads as removes the entry. -/
def Memory.write : Memory → Nat → Byte → Memory
  | [], a, b => Memory.consCell a b []
  | (a', b') :: m, a, b =>
    if a < a' then Memory.consCell a b ((a', b') :: m)
    else if a = a' then Memory.consCell a b m
    else (a', b') :: Memory.write m a b

/-- `MemRead(a, n)`: the bytes at `a .. a+n-1` in ascending order (R54). -/
def Memory.readBytes (m : Memory) (a : Nat) : Nat → List Byte
  | 0 => []
  | n + 1 => m.read a :: m.readBytes (a + 1) n

/-- `MemWrite(a, n, bytes)`: one byte a cell from `a` upward, in ascending order (R54). -/
def Memory.writeBytes (m : Memory) (a : Nat) : List Byte → Memory
  | [] => m
  | b :: bs => (m.write a b).writeBytes (a + 1) bs

end Sys2Proof.Machine
end

