-- ==== Sys2Proof/Machine/State.lean ====
section
/-!
DEFINITION. The state record of the block (spec/10_state.md R20: these fields and no others), the model's state around it, which
adds the one counter `draws`, the reset state (70_reset_and_hazards.md R260), the reasons a step can stop (60_exceptions.md R230)
and what a step answers. Output events (40_cycle.md R111) are outputs and stand in no state.
-/
namespace Sys2Proof.Machine

/-- What kind of access went out of range (20_memory.md R53). -/
inductive AccessKind where
  | fetch
  | read
  | write
  deriving DecidableEq, Repr

/-- The four fatal runtime faults: the values of the `fault` element (10_state.md R33, 60_exceptions.md R230). -/
inductive FaultReason where
  /-- Raised by CALL with SP = 16 (R232). Safe: the run ends, as the spec says. -/
  | stackOverflow
  /-- Raised by RET with SP = 0 (R233). Safe: the run ends, as the spec says. -/
  | stackUnderflow
  /-- Raised by the fetch, DRW, LD B, LD [I] and LD Vx, [I] on an access past 0xFFF (R234); `addr` is the lowest out-of-range
  address of the access. Safe: the run ends (the spec's decision D3; log 10). -/
  | memoryOutOfRange (kind : AccessKind) (addr : Nat)
  /-- Raised by SKP and SKNP with V[x] above 0xF (R235). Safe: the run ends (the spec's decision D9; log 11). -/
  | keyIndexOutOfRange (value : Byte)
  deriving DecidableEq, Repr

/-- An output event of a step (40_cycle.md R111). -/
inductive Event where
  /-- The report of an unknown opcode: the word and its address (R107). -/
  | diag (word pc : Word)
  /-- The sound timer went from 1 to 0 (R109). -/
  | beep
  deriving DecidableEq, Repr

/-- The 64 by 32 pixels, `fb[c][r]` at column `c` and row `r` (10_state.md R29). -/
abbrev Framebuffer := Vector (Vector Bool 32) 64

/-- The keypad, true meaning down (10_state.md R31). -/
abbrev Keypad := Vector Bool 16

/-- The state record of 10_state.md R20: its twelve elements, and no others. -/
structure StateRecord where
  /-- The 4096 bytes of memory (R20, R50). -/
  mem : Memory
  /-- V0 to VF (R21). -/
  v : Vector Byte 16
  /-- The index register I (R26). -/
  i : Word
  /-- The program counter (R25). -/
  pc : Word
  /-- The 16 slots of the call stack (R27). -/
  stack : Vector Word 16
  /-- The stack pointer, 0 to 16: the number of occupied slots (R27). -/
  sp : Fin 17
  /-- The delay timer DT (R28). -/
  dt : Byte
  /-- The sound timer ST (R28). -/
  st : Byte
  /-- The framebuffer (R29). -/
  fb : Framebuffer
  /-- The redraw flag (R30). -/
  redraw : Bool
  /-- The keypad (R31). -/
  key : Keypad
  /-- The fatal fault, if one was raised (R33). -/
  fault : Option FaultReason
  deriving DecidableEq, Repr

/-- What the host's interface steps on: the spec's state record, and beside it the place in the sequence of RAND inputs. The spec's
own step, on the record alone, is `StateRecord.step` (Machine/RecordStep.lean). -/
structure State extends StateRecord where
  /-- The model's own, no part of the record (R35): how many RAND bytes were drawn. It stands for the step's input byte `r`
  (40_cycle.md R100), since the interface's step has no input: the next Cxkk draws `Config.rand draws`. DESIGN CHOICE, log 2. -/
  draws : Nat
  deriving DecidableEq, Repr

/-- Why a step stops. Both are the spec's second outcome of a step, `Faulted` (40_cycle.md R100), and what follows it. -/
inductive Fault where
  /-- The step faulted (R112): raised by the fetch and by the meanings that `FaultReason` names. `final` is the faulted state the
  spec gives: the state before the step with `fault` set. Safe: a faulted run is never a good end (60_exceptions.md R231). -/
  | faulted (reason : FaultReason) (final : State)
  /-- The state was faulted before the step, and such a state has no step (R113): raised by `step` alone. Safe: nothing runs. -/
  | noStep (reason : FaultReason)
  deriving DecidableEq, Repr

/-- Why an instruction has no meaning. -/
inductive Refusal where
  /-- Raised by an arm of exec for an instruction that is not modelled yet; no arm raises it now. Safe: nothing runs. -/
  | notModelled (mnemonic : String)
  deriving DecidableEq, Repr

/-- What a step answers, its output events left out. -/
abbrev Result := Host.Outcome State Fault Refusal

/-- What a step answers, a completed one with its output events: `Completed(state, events)` (40_cycle.md R100, R111). -/
abbrev StepResult := Host.Outcome (State × List Event) Fault Refusal

/-- The state record right after reset, `initialize(GLYPHS)` with the default GLYPHS (70_reset_and_hazards.md R260). Memory lists
nothing: every byte is as `unlistedByte` says. `redraw`, `key` and `fault`: the spec's decision D13, log 12. -/
def StateRecord.reset : StateRecord where
  mem := []
  v := Vector.replicate 16 0
  i := 0
  pc := 0x0200
  stack := Vector.replicate 16 0
  sp := 0
  dt := 0
  st := 0
  fb := Vector.replicate 64 (Vector.replicate 32 false)
  redraw := false
  key := Vector.replicate 16 false
  fault := none

/-- The state right after reset: the record after reset (70_reset_and_hazards.md R260). `draws` starts at 0: DESIGN CHOICE, log 2. -/
def State.reset : State := { StateRecord.reset with draws := 0 }

/-- The record as a state, for what is defined on states and does not read `draws`. -/
def StateRecord.asState (s : StateRecord) : State := { s with draws := 0 }

end Sys2Proof.Machine
end

