-- ==== Sys2Proof/Machine/Ops.lean ====
section
/-!
DEFINITION. The named operations over registers, stack, memory, pixels and timers that the meanings share, raising a fatal
fault (the block's only exception: spec/60_exceptions.md R231, R239), the next-PC kinds (40_cycle.md R104), the fetch
(R102, R103) and the timer tick (R108, R109). There is no return from an exception (60_exceptions.md R240).
-/
namespace Sys2Proof.Machine

/-- `V[x]` (00_scope.md R11). -/
def State.getV (s : State) (x : Reg) : Byte := s.v[x.val]

/-- `V[x] <- b` (00_scope.md R11). -/
def State.setV (s : State) (x : Reg) (b : Byte) : State := { s with v := s.v.set x.val b }

/-- `V[k] <- b0; V[k+1] <- b1; ...` in ascending order, on a register file (43_index_memory.md R175). -/
def writeRegs (v : Vector Byte 16) (k : Nat) : List Byte → Vector Byte 16
  | [] => v
  | b :: bs => writeRegs (v.setIfInBounds k b) (k + 1) bs

/-- Raise a fatal fault (40_cycle.md R112, 60_exceptions.md R231): the machine stops, nothing is committed, and the state is
the one before with `fault` set. -/
def raise (reason : FaultReason) (s : State) : Result := .fault (.faulted reason { s with fault := some reason })

/-- An access to `a .. a+n-1` is in range; no byte, no access (20_memory.md R53, on exact integers as R51 says). -/
def accessInRange (a n : Nat) : Bool := n == 0 || decide (a + n - 1 ≤ 0xFFF)

/-- The lowest out-of-range address of an access that starts at `a` and runs past 0xFFF (20_memory.md R53). -/
def firstOutOfRange (a : Nat) : Nat := max a 0x1000

/-- Check an access before anything moves: go on, or raise MemoryOutOfRange (20_memory.md R53, 60_exceptions.md R234). -/
def withAccess (kind : AccessKind) (a n : Nat) (s : State) (go : Result) : Result :=
  if accessInRange a n then go else raise (.memoryOutOfRange kind (firstOutOfRange a)) s

/-- Commit the next PC, an exact integer, modulo 2^16 (40_cycle.md R104). Kind Jump. -/
def State.jump (s : State) (target : Nat) : State := { s with pc := BitVec.ofNat 16 target }

/-- Kind Seq: nextPC = A + 2 (40_cycle.md R104). -/
def State.seq (s : State) : State := s.jump (s.pc.toNat + 2)

/-- Kind Skip: nextPC = A + 4 if the condition holds, else A + 2 (40_cycle.md R104). -/
def State.skipIf (s : State) (c : Bool) : State := s.jump (if c then s.pc.toNat + 4 else s.pc.toNat + 2)

/-- Kind Stay: nextPC = A (40_cycle.md R104). -/
def State.stay (s : State) : State := s.jump s.pc.toNat

/-- Push a return address: `stack[SP] <- w; SP <- SP + 1`; none when all 16 slots are taken (10_state.md R27). -/
def State.push? (s : State) (w : Word) : Option State :=
  if h : s.sp.val < 16 then some { s with stack := s.stack.set s.sp.val w, sp := ⟨s.sp.val + 1, by omega⟩ } else none

/-- Pop a return address: `SP <- SP - 1`, then read `stack[SP]`, which keeps its value; none when no slot is taken
(10_state.md R27). -/
def State.pop? (s : State) : Option (Word × State) :=
  if h : 0 < s.sp.val then
    some (s.stack[s.sp.val - 1]'(by omega), { s with sp := ⟨s.sp.val - 1, by omega⟩ })
  else none

/-- The RAND draw of this Cxkk, and the state with the draw used up (00_scope.md R8, 42_alu.md R155). A free value: the opaque
`Config.rand`. Log 2. -/
def State.drawByte (s : State) : Byte × State := (Config.rand s.draws, { s with draws := s.draws + 1 })

/-- The pixel at column `c`, row `r` (10_state.md R29). -/
def getPixel (fb : Framebuffer) (c : Fin 64) (r : Fin 32) : Bool := fb[c.val][r.val]

/-- The framebuffer with one pixel XORed with 1 (44_display.md R191). -/
def flipPixel (fb : Framebuffer) (c : Fin 64) (r : Fin 32) : Framebuffer :=
  fb.set c.val (fb[c.val].set r.val (!fb[c.val][r.val]))

/-- The framebuffer with every pixel 0 (44_display.md R190). -/
def clearFramebuffer : Framebuffer := Vector.replicate 64 (Vector.replicate 32 false)

/-- Fetch: the big-endian word at PC and PC + 1, or the fault where PC + 1 is past 0xFFF (40_cycle.md R102, R103). -/
def fetch (s : State) : Except FaultReason Word :=
  if accessInRange s.pc.toNat 2 then .ok (wordOfBytes (s.mem.read s.pc.toNat) (s.mem.read (s.pc.toNat + 1)))
  else .error (.memoryOutOfRange .fetch (firstOutOfRange s.pc.toNat))

/-- The delay timer's tick: `if DT > 0 then DT <- DT - 1` (40_cycle.md R108). -/
def State.tickDelay (s : State) : State := if s.dt.toNat > 0 then { s with dt := BitVec.ofNat 8 (s.dt.toNat - 1) } else s

/-- The sound timer's tick: `if ST > 0 then ST <- ST - 1` (40_cycle.md R109). -/
def State.tickSound (s : State) : State := if s.st.toNat > 0 then { s with st := BitVec.ofNat 8 (s.st.toNat - 1) } else s

/-- The timer tick: the delay timer, then the sound timer (40_cycle.md R108, R109). -/
def State.tick (s : State) : State := s.tickDelay.tickSound

/-- The output of the tick: a Beep where ST goes from 1 to 0 (40_cycle.md R109). -/
def State.tickEvents (s : State) : List Event := if s.st.toNat = 1 then [.beep] else []

/-- A result with the output events of a completed execute (40_cycle.md R106). -/
def withEvents (events : List Event) : Result → StepResult
  | .next s => .next (s, events)
  | .fault f => .fault f
  | .refused r => .refused r

/-- The end of a step: a step that completes ticks once and adds the tick's output to its own, a step that faults does not
(40_cycle.md R100, R110, R112). -/
def finishStep : StepResult → StepResult
  | .next (s, events) => .next (s.tick, events ++ s.tickEvents)
  | .fault f => .fault f
  | .refused r => .refused r

/-- The state part of what a step answers. -/
def dropEvents : StepResult → Result
  | .next (s, _) => .next s
  | .fault f => .fault f
  | .refused r => .refused r

/-- The output events of what a step answers: those of a completed step; a step that faults emits none (40_cycle.md R111, R112). -/
def eventsOf : StepResult → List Event
  | .next (_, events) => events
  | .fault _ => []
  | .refused _ => []

/-- An unknown word: report the word and its address, write nothing, go on at A + 2 (40_cycle.md R107). -/
def execUnknown (w : Word) (s : State) : StepResult := .next (s.seq, [.diag w s.pc])

/-- Store an instruction's bytes at PC and PC + 1, where the next fetch reads them; nothing where no fetch can (R102). -/
def State.placeWord (s : State) (w : Word) : State :=
  if accessInRange s.pc.toNat 2 then { s with mem := s.mem.writeBytes s.pc.toNat (bytesOfWord w) } else s

end Sys2Proof.Machine
end

