-- ==== Sys2Proof/Machine/Flags.lean ====
section
/-!
DEFINITION. The flag computations, all into VF (spec/10_state.md R23), and the one write of a result and its flag, the flag
last (42_alu.md R140; the spec's decision D7, log 7).
-/
namespace Sys2Proof.Machine

/-- A flag as VF holds it: 1 or 0. -/
def flagByte (c : Bool) : Byte := if c then 1 else 0

/-- Carry of the unwrapped sum (42_alu.md R147). -/
def carryFlag (a b : Byte) : Byte := flagByte (decide (a.toNat + b.toNat > 255))

/-- NOT borrow of `a - b`: 0 where `b > a`, else 1 (42_alu.md R148, R150). -/
def notBorrowFlag (a b : Byte) : Byte := flagByte (!decide (b.toNat > a.toNat))

/-- The bit a right shift by one shifts out (42_alu.md R149). -/
def shiftedOutRight (a : Byte) : Byte := flagByte (a.getLsbD 0)

/-- The bit a left shift by one shifts out (42_alu.md R151). -/
def shiftedOutLeft (a : Byte) : Byte := flagByte (a.getLsbD 7)

/-- Collision of a draw (44_display.md R194). -/
def collisionFlag (coll : Bool) : Byte := flagByte coll

/-- Write a result to `V[x]`, then its flag to VF (42_alu.md R140). -/
def State.setResultAndFlag (s : State) (x : Reg) (result flag : Byte) : State := (s.setV x result).setV VF flag

end Sys2Proof.Machine
end

