-- ==== Sys2Proof/Machine/Alu.lean ====
section
/-!
DEFINITION. Register and ALU instructions (spec/42_alu.md): 8-bit unsigned arithmetic modulo 256, operands read before any
write, the flag written last (R140). Every meaning goes on at A + 2 and raises no fault.
-/
namespace Sys2Proof.Machine

/-- 6xkk LD Vx, kk (R141). -/
def execLdImm (x : Reg) (kk : Byte) (s : State) : Result := .next (s.setV x kk).seq

/-- 7xkk ADD Vx, kk (R142): no flag. -/
def execAddImm (x : Reg) (kk : Byte) (s : State) : Result := .next (s.setV x (s.getV x + kk)).seq

/-- 8xy0 LD Vx, Vy (R143). -/
def execLdReg (x y : Reg) (s : State) : Result := .next (s.setV x (s.getV y)).seq

/-- 8xy1 OR Vx, Vy (R144): no flag. -/
def execOrReg (x y : Reg) (s : State) : Result := .next (s.setV x (s.getV x ||| s.getV y)).seq

/-- 8xy2 AND Vx, Vy (R145): no flag. -/
def execAndReg (x y : Reg) (s : State) : Result := .next (s.setV x (s.getV x &&& s.getV y)).seq

/-- 8xy3 XOR Vx, Vy (R146): no flag. -/
def execXorReg (x y : Reg) (s : State) : Result := .next (s.setV x (s.getV x ^^^ s.getV y)).seq

/-- 8xy4 ADD Vx, Vy (R147): VF = carry. -/
def execAddReg (x y : Reg) (s : State) : Result :=
  .next (s.setResultAndFlag x (s.getV x + s.getV y) (carryFlag (s.getV x) (s.getV y))).seq

/-- 8xy5 SUB Vx, Vy (R148): VF = NOT borrow. -/
def execSub (x y : Reg) (s : State) : Result :=
  .next (s.setResultAndFlag x (s.getV x - s.getV y) (notBorrowFlag (s.getV x) (s.getV y))).seq

/-- 8xy6 SHR Vx (R149): VF = old bit 0; the `y` field is ignored. -/
def execShr (x _y : Reg) (s : State) : Result :=
  .next (s.setResultAndFlag x (s.getV x >>> 1) (shiftedOutRight (s.getV x))).seq

/-- 8xy7 SUBN Vx, Vy (R150): VF = NOT borrow. -/
def execSubn (x y : Reg) (s : State) : Result :=
  .next (s.setResultAndFlag x (s.getV y - s.getV x) (notBorrowFlag (s.getV y) (s.getV x))).seq

/-- 8xyE SHL Vx (R151): VF = old bit 7; the `y` field is ignored. -/
def execShl (x _y : Reg) (s : State) : Result :=
  .next (s.setResultAndFlag x (s.getV x <<< 1) (shiftedOutLeft (s.getV x))).seq

/-- Cxkk RND Vx, kk with the step's input byte `r` (R155): `r` AND kk. -/
def execRndWith (r : Byte) (x : Reg) (kk : Byte) (s : State) : Result := .next (s.setV x (r &&& kk)).seq

/-- Cxkk RND Vx, kk (R155): the input byte is a free value, drawn afresh (log 2). -/
def execRnd (x : Reg) (kk : Byte) (s : State) : Result := execRndWith s.drawByte.1 x kk s.drawByte.2

end Sys2Proof.Machine
end

