-- ==== Sys2Proof/Machine/Operands.lean ====
section
/-!
DEFINITION. The operand forms: register lists, I-relative addresses (spec/43_index_memory.md R176), key indices
(45_input_timers.md R216), the lowest key down (R213), the decimal digits (R173), the glyph address (R172) and the pixels of a
sprite (44_display.md R191-R193). V registers and literals are read where they stand (30_encoding.md R72).
-/
namespace Sys2Proof.Machine

/-- A 12-bit literal, zero-extended to an address (30_encoding.md R72). -/
def addrOperand (nnn : BitVec 12) : Nat := nnn.toNat

/-- The address in I, an exact integer (43_index_memory.md R176). -/
def State.iAddr (s : State) : Nat := s.i.toNat

/-- `V0..Vx` in ascending order (43_index_memory.md R174). -/
def State.regsUpTo (s : State) (x : Reg) : List Byte := s.v.toList.take (x.val + 1)

/-- The three decimal digits of a byte: hundreds, tens, ones (43_index_memory.md R173). -/
def bcdDigits (b : Byte) : List Byte :=
  [BitVec.ofNat 8 (b.toNat / 100), BitVec.ofNat 8 (b.toNat / 10 % 10), BitVec.ofNat 8 (b.toNat % 10)]

/-- The address of the glyph of a digit: five bytes a glyph, for the whole byte (43_index_memory.md R172; D22, log 15). -/
def glyphAddr (b : Byte) : Nat := b.toNat * 5

/-- The state of key `k`, or none where `k` is past the 16 keys (45_input_timers.md R216). -/
def State.keyAt? (s : State) (k : Byte) : Option Bool := s.key[k.toNat]?

/-- The lowest key that is down, if any is (45_input_timers.md R213). -/
def lowestKeyDown (keys : Keypad) : Option Nat := keys.toList.findIdx? (fun down => down)

/-- Bit `7 - c` of a sprite byte: column `c`, the most significant bit leftmost (44_display.md R191, R192; D10, log 6). -/
def spriteBit (b : Byte) (c : Nat) : Bool := b.getLsbD (7 - c)

/-- A coordinate's column, wrapped (44_display.md R193). -/
def wrapCol (c : Nat) : Fin 64 := ⟨c % 64, Nat.mod_lt _ (by decide)⟩

/-- A coordinate's row, wrapped (44_display.md R193). -/
def wrapRow (r : Nat) : Fin 32 := ⟨r % 32, Nat.mod_lt _ (by decide)⟩

/-- The pixels that one sprite row covers, left to right: its set bits, each wrapped on its own (44_display.md R191, R193). -/
def rowPixels (cx row : Nat) (b : Byte) : List (Fin 64 × Fin 32) :=
  ((List.range 8).filter (spriteBit b)).map fun c => (wrapCol (cx + c), wrapRow row)

/-- The pixels that a sprite covers, row by row from row `cy` (44_display.md R191). -/
def spritePixels (cx : Nat) : Nat → List Byte → List (Fin 64 × Fin 32)
  | _, [] => []
  | cy, b :: bs => rowPixels cx cy b ++ spritePixels cx (cy + 1) bs

/-- XOR the covered pixels onto the framebuffer, and tell whether one of them was set (44_display.md R191, R194). -/
def drawPixels : List (Fin 64 × Fin 32) → Framebuffer × Bool → Framebuffer × Bool
  | [], acc => acc
  | (c, r) :: ps, (fb, coll) => drawPixels ps (flipPixel fb c r, coll || getPixel fb c r)

end Sys2Proof.Machine
end

