-- ==== Sys2Proof/Machine/ControlFlow.lean ====
section
/-!
DEFINITION. Control transfer: return, jump, call, register skips and the computed jump (spec/41_control_flow.md). Each meaning
executes at A = `s.pc` and commits the next PC; the step around it ticks the timers.
-/
namespace Sys2Proof.Machine

/-- 00EE RET (R121): StackUnderflow on an empty stack, else resume after the call that pushed the popped address. -/
def execRet (s : State) : Result :=
  match s.pop? with
  | none => raise .stackUnderflow s
  | some (ret, s') => .next (s'.jump (ret.toNat + 2))

/-- 1nnn JP nnn (R122). -/
def execJp (nnn : BitVec 12) (s : State) : Result := .next (s.jump (addrOperand nnn))

/-- 2nnn CALL nnn (R123): StackOverflow on a full stack, else push A and jump. -/
def execCall (nnn : BitVec 12) (s : State) : Result :=
  match s.push? s.pc with
  | none => raise .stackOverflow s
  | some s' => .next (s'.jump (addrOperand nnn))

/-- 3xkk SE Vx, kk (R124). -/
def execSeImm (x : Reg) (kk : Byte) (s : State) : Result := .next (s.skipIf (s.getV x == kk))

/-- 4xkk SNE Vx, kk (R125). -/
def execSneImm (x : Reg) (kk : Byte) (s : State) : Result := .next (s.skipIf (s.getV x != kk))

/-- 5xy0 SE Vx, Vy (R126). -/
def execSeReg (x y : Reg) (s : State) : Result := .next (s.skipIf (s.getV x == s.getV y))

/-- 9xy0 SNE Vx, Vy (R127). -/
def execSneReg (x y : Reg) (s : State) : Result := .next (s.skipIf (s.getV x != s.getV y))

/-- Bnnn JP V0, nnn (R128): the exact sum, with no 12-bit wrap. -/
def execJpV0 (nnn : BitVec 12) (s : State) : Result := .next (s.jump (addrOperand nnn + (s.getV 0).toNat))

end Sys2Proof.Machine
end

