-- ==== Sys2Proof/Machine/Display.lean ====
section
/-!
DEFINITION. The framebuffer controller: clear and draw (spec/44_display.md). Both set the redraw flag on every execution (R195).
-/
namespace Sys2Proof.Machine

/-- 00E0 CLS (R190). -/
def execCls (s : State) : Result := .next { s with fb := clearFramebuffer, redraw := true }.seq

/-- The sprite of a draw: `n` bytes at I (44_display.md R191). -/
def State.spriteRows (s : State) (n : BitVec 4) : List Byte := s.mem.readBytes s.iAddr n.toNat

/-- The pixels that DRW Vx, Vy, n covers (44_display.md R191, R193). -/
def State.spriteCover (s : State) (x y : Reg) (n : BitVec 4) : List (Fin 64 × Fin 32) :=
  spritePixels (s.getV x).toNat (s.getV y).toNat (s.spriteRows n)

/-- Dxyn DRW Vx, Vy, n (R191): XOR the sprite, VF = collision (written last), redraw set. -/
def execDrw (x y : Reg) (n : BitVec 4) (s : State) : Result :=
  withAccess .read s.iAddr n.toNat s
    (.next ({ s with fb := (drawPixels (s.spriteCover x y n) (s.fb, false)).1, redraw := true }.setV VF
      (collisionFlag (drawPixels (s.spriteCover x y n) (s.fb, false)).2)).seq)

end Sys2Proof.Machine
end

