-- ==== Sys2Proof/Machine/IndexMemory.lean ====
section
/-!
DEFINITION. Index register and memory instructions (spec/43_index_memory.md). Every range check comes before any write, and a
failed one commits nothing (20_memory.md R53). Every meaning that completes goes on at A + 2.
-/
namespace Sys2Proof.Machine

/-- Annn LD I, nnn (R170). -/
def execLdI (nnn : BitVec 12) (s : State) : Result := .next { s with i := BitVec.ofNat 16 (addrOperand nnn) }.seq

/-- Fx1E ADD I, Vx (R171): modulo 2^16, no flag. -/
def execAddI (x : Reg) (s : State) : Result :=
  .next { s with i := BitVec.ofNat 16 (s.i.toNat + (s.getV x).toNat) }.seq

/-- Fx29 LD F, Vx (R172). -/
def execLdF (x : Reg) (s : State) : Result := .next { s with i := BitVec.ofNat 16 (glyphAddr (s.getV x)) }.seq

/-- Fx33 LD B, Vx (R173): the decimal digits at I, I + 1, I + 2. -/
def execLdB (x : Reg) (s : State) : Result :=
  withAccess .write s.iAddr 3 s (.next { s with mem := s.mem.writeBytes s.iAddr (bcdDigits (s.getV x)) }.seq)

/-- Fx55 LD [I], Vx (R174): V0 to Vx from I upward; I unchanged. -/
def execLdMemVx (x : Reg) (s : State) : Result :=
  withAccess .write s.iAddr (x.val + 1) s (.next { s with mem := s.mem.writeBytes s.iAddr (s.regsUpTo x) }.seq)

/-- Fx65 LD Vx, [I] (R175): V0 to Vx from I upward; I unchanged. -/
def execLdVxMem (x : Reg) (s : State) : Result :=
  withAccess .read s.iAddr (x.val + 1) s
    (.next { s with v := writeRegs s.v 0 (s.mem.readBytes s.iAddr (x.val + 1)) }.seq)

end Sys2Proof.Machine
end

