-- ==== Sys2Proof/Machine/InputTimers.lean ====
section
/-!
DEFINITION. Input state and timer instructions (spec/45_input_timers.md). The tick of the same step follows in `step`.
-/
namespace Sys2Proof.Machine

/-- Ex9E SKP Vx (R210): skip if key V[x] is down; KeyIndexOutOfRange where there is no such key (R216). -/
def execSkp (x : Reg) (s : State) : Result :=
  match s.keyAt? (s.getV x) with
  | none => raise (.keyIndexOutOfRange (s.getV x)) s
  | some down => .next (s.skipIf down)

/-- ExA1 SKNP Vx (R211): skip if key V[x] is up; KeyIndexOutOfRange where there is no such key (R216). -/
def execSknp (x : Reg) (s : State) : Result :=
  match s.keyAt? (s.getV x) with
  | none => raise (.keyIndexOutOfRange (s.getV x)) s
  | some down => .next (s.skipIf (!down))

/-- Fx07 LD Vx, DT (R212): DT before this step's tick. -/
def execLdVxDT (x : Reg) (s : State) : Result := .next (s.setV x s.dt).seq

/-- Fx0A LD Vx, K (R213): stay while no key is down, else V[x] = the lowest key down. -/
def execLdVxK (x : Reg) (s : State) : Result :=
  match lowestKeyDown s.key with
  | none => .next s.stay
  | some k => .next (s.setV x (BitVec.ofNat 8 k)).seq

/-- Fx15 LD DT, Vx (R214). -/
def execLdDTVx (x : Reg) (s : State) : Result := .next { s with dt := s.getV x }.seq

/-- Fx18 LD ST, Vx (R215). -/
def execLdSTVx (x : Reg) (s : State) : Result := .next { s with st := s.getV x }.seq

end Sys2Proof.Machine
end

