-- ==== Sys2Proof/Machine/Cycle.lean ====
section
/-!
DEFINITION. One step of the block with its outputs (spec/40_cycle.md R100): fetch, decode, execute, timer tick, and the output
events (R111), which are no part of any state (10_state.md R35).
-/
namespace Sys2Proof.Machine

/-- Execute what a word decodes to: an instruction, none of which emits an event, or an unknown word (40_cycle.md R106, R107). -/
def execDecoded (d : Decoded) (s : State) : StepResult :=
  match d with
  | .instr i => withEvents [] (exec i s)
  | .unknown w => execUnknown w s

/-- One step (40_cycle.md R100): `Completed(state, events)`, or the faulted state. A faulted state has none (R113). -/
def cycle (s : State) : StepResult :=
  match s.fault with
  | some reason => .fault (.noStep reason)
  | none =>
    match fetch s with
    | .error reason => withEvents [] (raise reason s)
    | .ok w => finishStep (execDecoded (decode w) s)

/-- The output events of the step from this state, in order (40_cycle.md R111); none where the step does not complete (R112). -/
def stepEvents (s : State) : List Event := eventsOf (cycle s)

end Sys2Proof.Machine
end

