-- ==== Sys2Proof/Machine/Step.lean ====
section
/-!
DEFINITION. One step of the block as the host's interface asks for it: the step of Cycle.lean without its output events, which
`stepEvents` gives beside it (spec/40_cycle.md R100, R111).
-/
namespace Sys2Proof.Machine

/-- One step (40_cycle.md R100): the next state, or the stop. Its output events are `stepEvents s`, log 1. -/
def step (s : State) : Host.Outcome State Fault Refusal := dropEvents (cycle s)

/-- The state with an instruction's word stored where the next step fetches it (20_memory.md R55): a program is loaded from
outside the machine, and this stands for that load (log 18). The bits of `w` above `nbits` are 0. -/
def State.withFetchWord (s : State) (nbits w : Nat) : State := s.placeWord (BitVec.ofNat 16 (w % 2 ^ nbits))

end Sys2Proof.Machine
end

