-- ==== Sys2Proof/Machine/RecordStep.lean ====
section
/-!
DEFINITION. The spec's own step (40_cycle.md R100): on the state record of 10_state.md R20, with the RAND byte as an input of the
step (00_scope.md R8, 42_alu.md R155). No field but the record's twelve takes part. `step`, whose type the host's interface fixes,
is this step with a free byte for its input (log 2).
-/
namespace Sys2Proof.Machine

/-- The two outcomes of a step (40_cycle.md R100). -/
inductive StepOutcome where
  /-- `Completed(s2, events)` -/
  | completed (s : StateRecord) (events : List Event)
  /-- `Faulted(s with fault = reason)`, and the reason that the host gets back (60_exceptions.md R250) -/
  | faulted (reason : FaultReason) (s : StateRecord)
  deriving DecidableEq, Repr

/-- What a step answers, on the records: none for a state that has no step (40_cycle.md R113). -/
def outcomeOf : StepResult → Option StepOutcome
  | .next (t, events) => some (.completed t.toStateRecord events)
  | .fault (.faulted reason t) => some (.faulted reason t.toStateRecord)
  | .fault (.noStep _) => none
  | .refused _ => none

/-- Execute a decoded word with the input byte `r`, which only Cxkk reads (40_cycle.md R100, R106). -/
def execInput (r : Byte) (d : Decoded) (s : State) : StepResult :=
  match d with
  | .instr (.rnd x kk) => withEvents [] (execRndWith r x kk s)
  | d => execDecoded d s

/-- `step(s, r)` (40_cycle.md R100): fetch, decode, execute with the input byte, tick. -/
def StateRecord.step (s : StateRecord) (r : Byte) : Option StepOutcome :=
  match s.fault with
  | some _ => none
  | none =>
    match fetch s.asState with
    | .error reason => some (.faulted reason { s with fault := some reason })
    | .ok w => outcomeOf (finishStep (execInput r (decode w) s.asState))

end Sys2Proof.Machine
end

