-- ==== Sys2Proof/Machine/HostInterface.lean ====
section
/-!
DEFINITION. The host's transactions (spec/60_exceptions.md R250) on the state record, each atomic and between steps, and the launch
protocol (70_reset_and_hazards.md R264): which transaction is allowed when. What it does not allow has no move (R264, R251).
-/
namespace Sys2Proof.Machine

/-- `initialize(GLYPHS)` for any glyph set (70_reset_and_hazards.md R260): memory all zero above the 80 glyph bytes, the rest as
in `StateRecord.reset`. -/
def StateRecord.initializeWith (glyphs : Vector Byte 80) : StateRecord :=
  { StateRecord.reset with mem := StateRecord.reset.mem.writeBytes 0 glyphs.toList }

/-- MAX_PROG: the most bytes a program may have (00_scope.md R7). -/
abbrev maxProgram : Nat := 3584

/-- Where a program is loaded (00_scope.md R7). -/
abbrev programBase : Nat := 0x200

/-- `load(bytes)` of a program that fits: the bytes from 0x200 upward, nothing else (70_reset_and_hazards.md R262);
`LoadTooLarge(len)` and nothing written where it does not fit (R263, 60_exceptions.md R236). -/
def StateRecord.load (s : StateRecord) (bytes : List Byte) : Except Nat StateRecord :=
  if bytes.length ≤ maxProgram then .ok { s with mem := s.mem.writeBytes programBase bytes } else .error bytes.length

/-- `setKeys(snapshot)`: the keypad is overwritten wholesale (60_exceptions.md R250, 10_state.md R31). -/
def StateRecord.setKeys (s : StateRecord) (snapshot : Keypad) : StateRecord := { s with key := snapshot }

/-- `readFramebuffer()`: a copy of the pixels (60_exceptions.md R250). -/
def StateRecord.readFramebuffer (s : StateRecord) : Framebuffer := s.fb

/-- `readRedraw()` (60_exceptions.md R250). -/
def StateRecord.readRedraw (s : StateRecord) : Bool := s.redraw

/-- `clearRedraw()` (60_exceptions.md R250, 10_state.md R30). -/
def StateRecord.clearRedraw (s : StateRecord) : StateRecord := { s with redraw := false }

/-- The transactions of the host interface, and no others (60_exceptions.md R250). -/
inductive Transaction where
  | initializeWith (glyphs : Vector Byte 80)
  | load (bytes : List Byte)
  /-- with the RAND draw that the host sends (00_scope.md R8) -/
  | step (r : Byte)
  | setKeys (snapshot : Keypad)
  | readFramebuffer
  | readRedraw
  | clearRedraw
  deriving DecidableEq, Repr

/-- What the host gets back from a transaction (60_exceptions.md R250). -/
inductive Reply where
  /-- initialize, setKeys and clearRedraw give nothing back -/
  | nothing
  /-- load succeeded -/
  | ok
  /-- load failed: the length -/
  | loadTooLarge (len : Nat)
  /-- step completed: its output events (40_cycle.md R111) -/
  | completed (events : List Event)
  /-- step faulted: the reason -/
  | faulted (reason : FaultReason)
  | pixels (fb : Framebuffer)
  | flag (b : Bool)
  deriving DecidableEq, Repr

/-- One instance of the block as its host sees it: where it stands in the launch protocol (70_reset_and_hazards.md R264), and
its state. A restart is a fresh instance (R266). -/
inductive Launch where
  /-- before `initialize` -/
  | fresh
  /-- after `initialize`, before `load` -/
  | initialized (s : StateRecord)
  /-- after a successful `load` -/
  | loaded (s : StateRecord)
  /-- after a failed `load`: no step follows (60_exceptions.md R236) -/
  | loadFailed (s : StateRecord)
  deriving DecidableEq, Repr

/-- The state of an initialised instance. -/
def Launch.state? : Launch → Option StateRecord
  | .fresh => none
  | .initialized s | .loaded s | .loadFailed s => some s

/-- The same place in the launch protocol with another state. -/
def Launch.withState : Launch → StateRecord → Launch
  | .fresh, _ => .fresh
  | .initialized _, s => .initialized s
  | .loaded _, s => .loaded s
  | .loadFailed _, s => .loadFailed s

/-- `step()` of a loaded instance with the draw `r`: `Completed(events)` or `Faulted(reason)`; none where the state is faulted already
(40_cycle.md R100, R113). -/
def Launch.stepLoaded (s : StateRecord) (r : Byte) : Option (Reply × Launch) :=
  match s.step r with
  | some (.completed t events) => some (.completed events, .loaded t)
  | some (.faulted reason t) => some (.faulted reason, .loaded t)
  | none => none

/-- `load(bytes)` of an initialised instance (70_reset_and_hazards.md R262, R263). -/
def Launch.loadInitialized (s : StateRecord) (bytes : List Byte) : Option (Reply × Launch) :=
  match s.load bytes with
  | .ok t => some (.ok, .loaded t)
  | .error len => some (.loadTooLarge len, .loadFailed s)

/-- A transaction that is allowed whenever there is a state: any time between steps (60_exceptions.md R250; DEDUCED for the
time before the load and after a fault, log 19). -/
def Launch.anyTime (l : Launch) (f : StateRecord → Reply × StateRecord) : Option (Reply × Launch) :=
  l.state?.map fun s => ((f s).1, l.withState (f s).2)

/-- What a transaction does and gives back, or none where the launch protocol has no move for it (60_exceptions.md R250 'when
allowed'; 70_reset_and_hazards.md R264; log 19). -/
def Launch.transact (l : Launch) : Transaction → Option (Reply × Launch)
  | .initializeWith glyphs =>
    match l with
    | .fresh => some (.nothing, .initialized (StateRecord.initializeWith glyphs))
    | _ => none
  | .load bytes =>
    match l with
    | .initialized s => Launch.loadInitialized s bytes
    | _ => none
  | .step r =>
    match l with
    | .loaded s => Launch.stepLoaded s r
    | _ => none
  | .setKeys snapshot => l.anyTime fun s => (.nothing, s.setKeys snapshot)
  | .readFramebuffer => l.anyTime fun s => (.pixels s.readFramebuffer, s)
  | .readRedraw => l.anyTime fun s => (.flag s.readRedraw, s)
  | .clearRedraw => l.anyTime fun s => (.nothing, s.clearRedraw)

end Sys2Proof.Machine
end

