-- ==== Sys2Proof/Safety.lean ====
section
/-!
DEFINITION. The terms in which claims about the machine are stated: the parts of the state and what a step leaves unchanged,
what each instruction writes, when it runs without a fault, its next PC (spec/40_cycle.md R104), what a sprite covers
(44_display.md R191, R193), the invariant of every run, and the instances of the block a host can bring about.
-/
namespace Sys2Proof.Machine

/-- One part of the state: the elements of 10_state.md R20, arrays taken apart, and the model's own `draws`. -/
inductive Part where
  | mem (a : Nat)
  | v (x : Reg)
  | i
  | pc
  | stack (k : Nat)
  | sp
  | dt
  | st
  | pixel (c : Fin 64) (r : Fin 32)
  | redraw
  | key (k : Nat)
  | fault
  | draws
  deriving DecidableEq, Repr

/-- The part holds the same value in both states. -/
def Part.Same (s t : State) : Part → Prop
  | .mem a => t.mem.read a = s.mem.read a
  | .v x => t.getV x = s.getV x
  | .i => t.i = s.i
  | .pc => t.pc = s.pc
  | .stack k => t.stack[k]? = s.stack[k]?
  | .sp => t.sp = s.sp
  | .dt => t.dt = s.dt
  | .st => t.st = s.st
  | .pixel c r => getPixel t.fb c r = getPixel s.fb c r
  | .redraw => t.redraw = s.redraw
  | .key k => t.key[k]? = s.key[k]?
  | .fault => t.fault = s.fault
  | .draws => t.draws = s.draws

/-- The frame: from `s` to `t`, every part of the state that is not listed is unchanged, each byte of memory, register, stack
slot, pixel and key a part of its own. -/
def ChangesOnly (parts : List Part) (s t : State) : Prop := ∀ p, p ∉ parts → p.Same s t

/-- The memory bytes `a .. a+n-1`. -/
def memParts (a n : Nat) : List Part := (List.range n).map fun k => .mem (a + k)

/-- The registers `V0..Vx`. -/
def regParts (x : Reg) : List Part := ((List.finRange 16).filter fun k => k ≤ x).map .v

/-- Every pixel of the framebuffer. -/
def allPixels : List Part := (List.finRange 64).flatMap fun c => (List.finRange 32).map fun r => .pixel c r

/-- The parts of the state that an instruction may change when it completes (41 to 45 of the spec; before the tick). -/
def writeSet (s : State) : Instr → List Part
  | .cls => allPixels ++ [.redraw, .pc]
  | .ret => [.sp, .pc]
  | .call _ => [.stack s.sp.val, .sp, .pc]
  | .jp _ | .jpV0 _ | .seImm _ _ | .sneImm _ _ | .seReg _ _ | .sneReg _ _ | .skp _ | .sknp _ => [.pc]
  | .ldImm x _ | .addImm x _ | .ldReg x _ | .orReg x _ | .andReg x _ | .xorReg x _ | .ldVxDT x | .ldVxK x => [.v x, .pc]
  | .addReg x _ | .sub x _ | .shr x _ | .subn x _ | .shl x _ => [.v x, .v VF, .pc]
  | .rnd x _ => [.v x, .pc, .draws]
  | .ldI _ | .addI _ | .ldF _ => [.i, .pc]
  | .drw x y n => ((s.spriteCover x y n).map fun p => .pixel p.1 p.2) ++ [.v VF, .redraw, .pc]
  | .ldDTVx _ => [.dt, .pc]
  | .ldSTVx _ => [.st, .pc]
  | .ldB _ => memParts s.iAddr 3 ++ [.pc]
  | .ldMemVx x => memParts s.iAddr (x.val + 1) ++ [.pc]
  | .ldVxMem x => regParts x ++ [.pc]

/-- The instruction runs without a fault in this state (60_exceptions.md R230, by its one check, R237). -/
def RunsNormally (s : State) : Instr → Prop
  | .ret => 0 < s.sp.val
  | .call _ => s.sp.val < 16
  | .drw _ _ n => n = 0 ∨ s.i.toNat + n.toNat - 1 ≤ 0xFFF
  | .skp x | .sknp x => (s.getV x).toNat ≤ 0xF
  | .ldB _ => s.i.toNat + 2 ≤ 0xFFF
  | .ldMemVx x | .ldVxMem x => s.i.toNat + x.val ≤ 0xFFF
  | .cls | .jp _ | .jpV0 _ | .seImm _ _ | .sneImm _ _ | .seReg _ _ | .sneReg _ _ | .ldImm _ _ | .addImm _ _ | .ldReg _ _
  | .orReg _ _ | .andReg _ _ | .xorReg _ _ | .addReg _ _ | .sub _ _ | .shr _ _ | .subn _ _ | .shl _ _ | .ldI _ | .rnd _ _
  | .ldVxDT _ | .ldVxK _ | .ldDTVx _ | .ldSTVx _ | .addI _ | .ldF _ => True

/-- The next PC of a skip (40_cycle.md R104, kind Skip). -/
def skipTarget (s : State) (c : Prop) [Decidable c] : Nat := if c then s.pc.toNat + 4 else s.pc.toNat + 2

/-- The exact next PC of an instruction that completes in this state: the table of 40_cycle.md R104. -/
def nextPc (s : State) : Instr → Nat
  | .jp nnn | .call nnn => nnn.toNat
  | .jpV0 nnn => nnn.toNat + (s.getV 0).toNat
  | .ret => (s.stack[s.sp.val - 1]?.getD 0).toNat + 2
  | .seImm x kk => skipTarget s (s.getV x = kk)
  | .sneImm x kk => skipTarget s (s.getV x ≠ kk)
  | .seReg x y => skipTarget s (s.getV x = s.getV y)
  | .sneReg x y => skipTarget s (s.getV x ≠ s.getV y)
  | .skp x => skipTarget s (s.key[(s.getV x).toNat]? = some true)
  | .sknp x => skipTarget s (s.key[(s.getV x).toNat]? = some false)
  | .ldVxK _ => if ∀ k : Fin 16, s.key[k.val] = false then s.pc.toNat else s.pc.toNat + 2
  | .cls | .ldImm _ _ | .addImm _ _ | .ldReg _ _ | .orReg _ _ | .andReg _ _ | .xorReg _ _ | .addReg _ _ | .sub _ _
  | .shr _ _ | .subn _ _ | .shl _ _ | .ldI _ | .rnd _ _ | .drw _ _ _ | .ldVxDT _ | .ldDTVx _ | .ldSTVx _ | .addI _
  | .ldF _ | .ldB _ | .ldMemVx _ | .ldVxMem _ => s.pc.toNat + 2

/-- PC has advanced by `d`, exactly, wherever 16 bits hold the sum (above 0xFFFF the commit wraps, 40_cycle.md R104; no
instruction can be fetched there, R102). -/
def PcAdvanced (d : Nat) (s t : State) : Prop := s.pc.toNat + d < 0x10000 → t.pc.toNat = s.pc.toNat + d

/-- The instruction is the meaning of the one word `n` and of no other (30_encoding.md R75). -/
def EncodedAs (i : Instr) (n : Nat) : Prop := ∀ w : Word, decode w = .instr i ↔ w.toNat = n

/-- The sprite of DRW Vx, Vy, n covers the pixel: some set bit of some row lands there, bit 7 leftmost, both axes wrapping
(44_display.md R191-R193). -/
def SpriteCovers (s : State) (x y : Reg) (n : BitVec 4) (c : Fin 64) (r : Fin 32) : Prop :=
  ∃ row < n.toNat, ∃ col < 8, (s.mem.read (s.i.toNat + row)).getLsbD (7 - col) = true ∧
    c.val = ((s.getV x).toNat + col) % 64 ∧ r.val = ((s.getV y).toNat + row) % 32

/-- The invariant of every state a run reaches: memory in its canonical form, every return address one that an instruction
was fetched from, and PC at most the highest target (40_cycle.md R104). -/
structure StateRecord.Inv (s : StateRecord) : Prop where
  memWf : s.mem.wf = true
  stackBound : ∀ k : Fin 16, s.stack[k.val].toNat ≤ 0xFFE
  pcBound : s.pc.toNat ≤ 0x10FE

/-- The instances of the block that a host can bring about with the transactions of 60_exceptions.md R250 under the launch
protocol (70_reset_and_hazards.md R264). -/
inductive Launch.Reached : Launch → Prop where
  | fresh : Launch.Reached .fresh
  | move {l l' : Launch} {reply : Reply} (tr : Transaction) (h : Launch.Reached l)
      (htr : l.transact tr = some (reply, l')) : Launch.Reached l'

/-- A state completes its step: it neither faults nor is faulted already. -/
def Completes (s : State) : Prop := ∃ t, step s = .next t

end Sys2Proof.Machine
end

