-- ==== Sys2Proof/Certificates/Slice0/Obligations.lean ====
section
/-!
DEFINITION. The statements for the provers. Each docstring names the rule of spec/ it formalises, or the sections and the spec's
own decisions (92_eei_decisions.md D<n>) or log entries it rests on. A next PC is stated exactly wherever 16 bits hold it
(`PcAdvanced`); the commit modulo 2^16 is `NextPcFollowsTheTable`.
-/
open Sys2Proof Sys2Proof.Machine

/-! ### Encoding -/

/-- A few words of the spec's examples and vectors decode as it says (30_encoding.md R74; 41 to 45 examples; 95 DEC-5). -/
def Obligations.SpecExampleWordsDecode : Prop :=
  decode 0x00E0 = .instr .cls ∧ decode 0x00EE = .instr .ret ∧ decode 0x1204 = .instr (.jp 0x204) ∧
  decode 0x2210 = .instr (.call 0x210) ∧ decode 0x3305 = .instr (.seImm 3 0x05) ∧
  decode 0x8014 = .instr (.addReg 0 1) ∧ decode 0xA300 = .instr (.ldI 0x300) ∧
  decode 0xD015 = .instr (.drw 0 1 5) ∧ decode 0xE59E = .instr (.skp 5) ∧
  decode 0xF307 = .instr (.ldVxDT 3) ∧ decode 0xF355 = .instr (.ldMemVx 3) ∧ decode 0x5121 = .unknown 0x5121

/-- Decoding the encoding of any well-formed instruction gives it back, every operand at every value (30_encoding.md 1 and 2). -/
def Obligations.DecodeOfEncodeIsIdentity : Prop :=
  ∀ i : Instr, i.wellFormed = true → decode (encode i) = .instr i

/-- Every word that decodes to an instruction of Instr is its one encoding: no bit of a word is dropped (30_encoding.md 1 and 2).
It holds of 8xy6 and 8xyE because their constructors keep the ignored `y`, the model's own choice (log 24): the spec decodes every
`y` to one SHR Vx or SHL Vx. In groups 0, 5 and 9 it rests on the digits compared, the spec's decision D8 (log 9). -/
def Obligations.EncodeOfDecodeIsIdentity : Prop :=
  ∀ (w : Word) (i : Instr), decode w = .instr i → encode i = w

/-- The opcode map of R75: one row per instruction, a word selects a row exactly when it decodes to that row's instruction, no
word selects two rows, and a word that selects none is unknown. -/
def Obligations.OpcodeMapSelectsTheInstruction : Prop :=
  opcodeMap.length = 34 ∧ (∀ i : Instr, rowOf i ∈ opcodeMap) ∧
  (∀ (w : Word) (row : OpcodeRow), row ∈ opcodeMap →
    (w &&& row.mask = row.pattern ↔ ∃ i, decode w = .instr i ∧ rowOf i = row)) ∧
  (∀ (w : Word) (r₁ r₂ : OpcodeRow), r₁ ∈ opcodeMap → r₂ ∈ opcodeMap →
    w &&& r₁.mask = r₁.pattern → w &&& r₂.mask = r₂.pattern → r₁ = r₂) ∧
  (∀ w : Word, (∀ row ∈ opcodeMap, w &&& row.mask ≠ row.pattern) → decode w = .unknown w)

/-- The unknown words are exactly those of the list in 30_encoding.md 3 (R76's groups; which digits groups 0, 5 and 9 compare is
the spec's decision D8, log 9). -/
def Obligations.UnknownWordsAreTheListedGroups : Prop :=
  ∀ w : Word, decode w = .unknown w ↔
    (w.toNat < 0x1000 ∧ w.toNat ≠ 0x00E0 ∧ w.toNat ≠ 0x00EE) ∨
    (w.toNat / 0x1000 = 0x5 ∧ w.toNat % 16 ≠ 0) ∨
    (w.toNat / 0x1000 = 0x8 ∧ w.toNat % 16 ∈ [0x8, 0x9, 0xA, 0xB, 0xC, 0xD, 0xF]) ∨
    (w.toNat / 0x1000 = 0x9 ∧ w.toNat % 16 ≠ 0) ∨
    (w.toNat / 0x1000 = 0xE ∧ w.toNat % 256 ∉ [0x9E, 0xA1]) ∨
    (w.toNat / 0x1000 = 0xF ∧ w.toNat % 256 ∉ [0x07, 0x0A, 0x15, 0x18, 0x1E, 0x29, 0x33, 0x55, 0x65])

/-! ### The step -/

/-- A step runs the decoded instruction: where the bytes at PC and PC + 1 decode to `i`, the step is exec of `i`, and a tick if
that completes (40_cycle.md 1). -/
def Obligations.StepRunsTheDecodedInstruction : Prop :=
  ∀ (s : State) (i : Instr), s.fault = none → s.pc.toNat ≤ 0xFFE → i.wellFormed = true →
    decode (wordOfBytes (s.mem.read s.pc.toNat) (s.mem.read (s.pc.toNat + 1))) = .instr i →
    step s =
      match exec i s with
      | .next t => .next t.tick
      | .fault f => .fault f
      | .refused r => .refused r

/-- Fetch composes the big-endian word (40_cycle.md R103, 20_memory.md R55). -/
def Obligations.FetchIsBigEndian : Prop :=
  ∀ s : State, s.pc.toNat ≤ 0xFFE → ∃ w : Word, fetch s = .ok w ∧
    w = ((s.mem.read s.pc.toNat).setWidth 16 <<< 8 ||| (s.mem.read (s.pc.toNat + 1)).setWidth 16)

/-- A fetch past the end of memory faults, names the lowest out-of-range address and commits nothing (40_cycle.md 1; the spec's
decisions D3 and D4, logs 5 and 10). -/
def Obligations.FetchPastMemoryFaults : Prop :=
  ∀ s : State, s.fault = none → 0xFFF ≤ s.pc.toNat →
    step s = .fault (.faulted (.memoryOutOfRange .fetch (max s.pc.toNat 0x1000))
      { s with fault := some (.memoryOutOfRange .fetch (max s.pc.toNat 0x1000)) })

/-- An unknown word is reported with its address and skipped, and the timers tick (40_cycle.md 1; the report's form as an event is
the spec's decision D20, the tick on such a step D23, logs 1 and 13). -/
def Obligations.UnknownWordIsReportedAndSkipped : Prop :=
  ∀ (s : State) (w : Word), s.fault = none → fetch s = .ok w → decode w = .unknown w →
    ∃ t, step s = .next t ∧ t.pc.toNat = s.pc.toNat + 2 ∧
      stepEvents s = .diag w s.pc :: (if s.st.toNat = 1 then [.beep] else []) ∧
      t.dt.toNat = s.dt.toNat - 1 ∧ t.st.toNat = s.st.toNat - 1 ∧ ChangesOnly [.pc, .dt, .st] s t

/-- Every completed step ends with one tick of the values execute left: each timer counts down by one unless it is 0, the sound
timer beeps on its way from 1 to 0, after the events of execute, which an instruction has none of and an unknown word has its Diag,
and the tick changes nothing else (40_cycle.md 1, 2 and 3; that every completed step ticks, a value written in it included, is the
spec's decision D23, log 13; the form of the events is D20 and D21, and that `stepEvents` gives them beside the step is the model's
form, log 1). -/
def Obligations.CompletedStepTicksTheTimers : Prop :=
  ∀ s t : State, step s = .next t → ∃ (w : Word) (s₁ : State) (events : List Event), fetch s = .ok w ∧
    execDecoded (decode w) s = .next (s₁, events) ∧
    (∀ i, decode w = .instr i → events = []) ∧ (decode w = .unknown w → events = [.diag w s.pc]) ∧
    t.dt.toNat = s₁.dt.toNat - 1 ∧ t.st.toNat = s₁.st.toNat - 1 ∧
    stepEvents s = events ++ (if s₁.st.toNat = 1 then [.beep] else []) ∧ ChangesOnly [.dt, .st] s₁ t

/-- The step is the spec's step of the state record with a drawn byte as its input (40_cycle.md 1; the input byte is the spec's
decision D12, the drawing of it the model's form, log 2): what `cycle` answers is, on the records, `StateRecord.step` with the byte
that `Config.rand` gives; with any input byte `r` a fetched Cxkk completes and leaves `r` AND kk; and no other word reads it. -/
def Obligations.StepIsTheRecordsStepWithADrawnByte : Prop :=
  (∀ s : State, outcomeOf (cycle s) = s.toStateRecord.step (Config.rand s.draws)) ∧
  (∀ (s : State) (r : Byte) (w : Word) (x : Reg) (kk : Byte), s.fault = none → fetch s = .ok w → decode w = .instr (.rnd x kk) →
    ∃ (t : StateRecord) (events : List Event), s.toStateRecord.step r = some (.completed t events) ∧ t.v[x.val] = r &&& kk) ∧
  (∀ (s : State) (r r' : Byte) (w : Word), fetch s = .ok w → (∀ x kk, decode w ≠ .instr (.rnd x kk)) →
    s.toStateRecord.step r = s.toStateRecord.step r')

/-- In every step that does not run Fx15, waiting and unknown-word steps included, DT counts down by one, and at 0 stays 0
(40_cycle.md 2; 95_test_vectors.md L1-9, counted as 90_conflicts.md C1 resolves it; the spec's decision D23, log 13). -/
def Obligations.DelayTimerCountsDownUnlessWritten : Prop :=
  ∀ (s t : State) (w : Word), step s = .next t → fetch s = .ok w → (∀ x, decode w ≠ .instr (.ldDTVx x)) →
    t.dt.toNat = s.dt.toNat - 1

/-- The output events of a completed step: at most one Diag, of an unknown word at A, then at most one Beep; a step that does not
complete has none (40_cycle.md 3; the form of both is the spec's decisions D20 and D21, that a fault emits nothing D4 and D17, that
`stepEvents` gives them beside the step the model's form, logs 1 and 5). -/
def Obligations.StepEventsAreDiagThenBeep : Prop :=
  ∀ s : State,
    (∀ t, step s = .next t → ∃ d b : List Event, stepEvents s = d ++ b ∧
      (d = [] ∨ ∃ w, fetch s = .ok w ∧ decode w = .unknown w ∧ d = [.diag w s.pc]) ∧ (b = [] ∨ b = [.beep])) ∧
    (∀ f, step s = .fault f → stepEvents s = [])

/-- A faulting step commits nothing, emits nothing and ticks nothing: the faulted state is the one before with the fault recorded;
and a faulted state has no step (40_cycle.md 3; the spec's decisions D4 and D17, log 5). -/
def Obligations.FaultingStepCommitsNothing : Prop :=
  ∀ (s t : State) (r : FaultReason), step s = .fault (.faulted r t) →
    t = { s with fault := some r } ∧ stepEvents s = [] ∧ s.fault = none ∧ step t = .fault (.noStep r)

/-- Each fault has its one cause (60_exceptions.md 1; the memory and key faults are the spec's decisions D3 and D9, logs 10, 11). -/
def Obligations.EachFaultHasItsCause : Prop :=
  ∀ (i : Instr) (s t : State) (r : FaultReason), exec i s = .fault (.faulted r t) →
    match r with
    | .stackOverflow => (∃ nnn, i = .call nnn) ∧ s.sp.val = 16
    | .stackUnderflow => i = .ret ∧ s.sp.val = 0
    | .memoryOutOfRange kind a =>
      a = max s.i.toNat 0x1000 ∧
        ((kind = .write ∧ ((∃ x, i = .ldB x ∧ s.i.toNat + 2 > 0xFFF) ∨ (∃ x, i = .ldMemVx x ∧ s.i.toNat + x.val > 0xFFF))) ∨
         (kind = .read ∧ ((∃ x y n, i = .drw x y n ∧ n.toNat > 0 ∧ s.i.toNat + n.toNat - 1 > 0xFFF) ∨
           (∃ x, i = .ldVxMem x ∧ s.i.toNat + x.val > 0xFFF))))
    | .keyIndexOutOfRange k => ∃ x, (i = .skp x ∨ i = .sknp x) ∧ k = s.getV x ∧ k.toNat > 0xF

/-- An instruction answers a next state exactly where its one check passes, and no instruction is refused
(60_exceptions.md 1, R230's table and R237; the checks of memory and keys are the spec's decisions D3 and D9, logs 10, 11). -/
def Obligations.ExecCompletesExactlyWhenItsCheckPasses : Prop :=
  ∀ (i : Instr) (s : State), ((∃ t, exec i s = .next t) ↔ RunsNormally s i) ∧ (∀ r, exec i s ≠ .refused r)

/-- No step is refused: every word runs, faults or is reported (30_encoding.md 2, 40_cycle.md 1). -/
def Obligations.StepIsNeverRefused : Prop := ∀ (s : State) (r : Refusal), step s ≠ .refused r

/-! ### Whole-machine rules -/

/-- The frame of every instruction: a completed execute changes only the parts the instruction writes, and of memory only the
bytes it stores to (41 to 45 of the spec, 10_state.md 1, 42_alu.md R154's claim; `draws` is the model's own field, log 2). -/
def Obligations.InstructionsChangeOnlyWhatTheyWrite : Prop :=
  ∀ (i : Instr) (s t : State), exec i s = .next t → ChangesOnly (writeSet s i) s t

/-- Who may write what: I, memory, stack, SP, pixels, DT and ST change in execute only by the instructions the state record
names (10_state.md 1, column 'written by'). -/
def Obligations.OnlyTheNamedInstructionsWriteEachPart : Prop :=
  ∀ (i : Instr) (s t : State), exec i s = .next t →
    (t.i ≠ s.i → (∃ n, i = .ldI n) ∨ (∃ x, i = .addI x) ∨ (∃ x, i = .ldF x)) ∧
    (t.mem ≠ s.mem → (∃ x, i = .ldB x) ∨ (∃ x, i = .ldMemVx x)) ∧
    (t.stack ≠ s.stack → ∃ n, i = .call n) ∧
    (t.sp ≠ s.sp → (∃ n, i = .call n) ∨ i = .ret) ∧
    (t.fb ≠ s.fb → i = .cls ∨ ∃ x y n, i = .drw x y n) ∧
    (t.redraw ≠ s.redraw → i = .cls ∨ ∃ x y n, i = .drw x y n) ∧
    (t.dt ≠ s.dt → ∃ x, i = .ldDTVx x) ∧
    (t.st ≠ s.st → ∃ x, i = .ldSTVx x)

/-- No step writes the keypad, clears the redraw flag or leaves a fault in a completed state
(10_state.md 6 and 7; 40_cycle.md 1; `fault` as a field is the spec's decision D4, log 5). -/
def Obligations.StepKeepsKeysAndNeverClearsRedraw : Prop :=
  ∀ s t : State, step s = .next t → t.key = s.key ∧ (s.redraw = true → t.redraw = true) ∧ t.fault = none

/-- VF after an instruction: 0 or 1 after each of the six that define a flag, and untouched by every other instruction that does
not name VF as its destination (10_state.md 3; that the flag lands last where x = F is the spec's decision D7, log 7). -/
def Obligations.OnlyFlagInstructionsAndNamedWritesTouchVF : Prop :=
  ∀ (i : Instr) (s t : State), exec i s = .next t →
    ((∃ x y, i = .addReg x y ∨ i = .sub x y ∨ i = .shr x y ∨ i = .subn x y ∨ i = .shl x y) ∨ (∃ x y n, i = .drw x y n) →
      t.getV VF = 0 ∨ t.getV VF = 1) ∧
    (t.getV VF ≠ s.getV VF →
      (∃ x y, i = .addReg x y ∨ i = .sub x y ∨ i = .shr x y ∨ i = .subn x y ∨ i = .shl x y) ∨ (∃ x y n, i = .drw x y n) ∨
      (∃ kk, i = .ldImm VF kk ∨ i = .addImm VF kk ∨ i = .rnd VF kk) ∨
      (∃ y, i = .ldReg VF y ∨ i = .orReg VF y ∨ i = .andReg VF y ∨ i = .xorReg VF y) ∨
      i = .ldVxDT VF ∨ i = .ldVxK VF ∨ i = .ldVxMem VF)

/-- The next PC of every instruction is that of the table of five kinds, committed modulo 2^16 (40_cycle.md 1; the modulus is the
spec's decision D6, log 8). -/
def Obligations.NextPcFollowsTheTable : Prop :=
  ∀ (i : Instr) (s t : State), exec i s = .next t → t.pc.toNat = nextPc s i % 0x10000

/-- From every state that meets the invariant, a step that completes leaves one that meets it: memory canonical, every return
address fetchable, PC at most 0x10FE (40_cycle.md 1, R104's bound; 20_memory.md 1; that memory has a canonical form is the model's
own choice, log 4). -/
def Obligations.StepKeepsTheInvariant : Prop := ∀ s t : State, s.Inv → step s = .next t → t.Inv

/-- The reset state meets the invariant, for every glyph set (70_reset_and_hazards.md 1; the clause that memory is canonical is the
model's own form, log 4). -/
def Obligations.ResetMeetsTheInvariant : Prop := State.reset.Inv ∧ ∀ glyphs, (StateRecord.initializeWith glyphs).Inv

/-- Every state that a host can bring about, by any allowed transactions in any order and with any programs and keys, meets the
invariant, faulted states too (60_exceptions.md 5, 70_reset_and_hazards.md 1; which transaction has a move when is the spec's
decision D2 and log 19; that memory has a canonical form is the model's own choice, log 4). -/
def Obligations.EveryReachedStateMeetsTheInvariant : Prop :=
  ∀ (l : Launch) (s : StateRecord), Launch.Reached l → l.state? = some s → s.Inv

/-- From every instance of the block, reached or not, whose state meets the invariant if it has one, every transaction that has a
move leaves an instance whose state meets it: initialize with any glyphs, load, step (completed or faulted), setKeys, clearRedraw
and the reads (60_exceptions.md 5, 70_reset_and_hazards.md 1; when a transaction has a move is the spec's decision D2 and log 19;
that memory has a canonical form is the model's own choice, log 4). -/
def Obligations.TransactionsKeepTheInvariant : Prop :=
  ∀ (l l' : Launch) (tr : Transaction) (reply : Reply), (∀ s, l.state? = some s → s.Inv) →
    l.transact tr = some (reply, l') → ∀ t, l'.state? = some t → t.Inv

/-- Two memories in canonical form that read alike at every address are equal data (20_memory.md 1; the form is the model's own,
log 4). -/
def Obligations.CanonicalMemoriesThatReadAlikeAreEqual : Prop :=
  ∀ m n : Memory, m.wf = true → n.wf = true → (∀ a, m.read a = n.read a) → m = n

/-! ### Reset and the host interface -/

/-- What `initialize` leaves, for every glyph set, and that the record of `State.reset` is what it leaves with the default glyphs
(70_reset_and_hazards.md 1; redraw, key and fault are the spec's decision D13, log 12; the default glyphs are D11, log 3; that the
two are equal as data rests on the canonical form of memory, log 4). -/
def Obligations.InitializeLeavesTheResetValues : Prop :=
  ∀ glyphs : Vector Byte 80,
    (∀ (a : Nat) (h : a < 80), (StateRecord.initializeWith glyphs).mem.read a = glyphs[a]) ∧
    (∀ a, 80 ≤ a → a < 0x1000 → (StateRecord.initializeWith glyphs).mem.read a = 0) ∧
    (∀ x : Reg, (StateRecord.initializeWith glyphs).v[x.val] = 0) ∧ (∀ k < 16, (StateRecord.initializeWith glyphs).stack[k]? = some 0) ∧
    (StateRecord.initializeWith glyphs).i = 0 ∧ (StateRecord.initializeWith glyphs).pc = 0x200 ∧ (StateRecord.initializeWith glyphs).sp = 0 ∧
    (StateRecord.initializeWith glyphs).dt = 0 ∧ (StateRecord.initializeWith glyphs).st = 0 ∧
    (∀ c r, getPixel (StateRecord.initializeWith glyphs).fb c r = false) ∧ (StateRecord.initializeWith glyphs).redraw = false ∧
    (∀ k < 16, (StateRecord.initializeWith glyphs).key[k]? = some false) ∧ (StateRecord.initializeWith glyphs).fault = none ∧
    (glyphs.toList = defaultGlyphs → StateRecord.initializeWith glyphs = StateRecord.reset ∧ State.reset.toStateRecord = StateRecord.reset)

/-- A program that fits is copied to 0x200 upward and nothing else changes (70_reset_and_hazards.md R262). -/
def Obligations.LoadCopiesTheProgram : Prop :=
  ∀ (s : StateRecord) (bytes : List Byte), bytes.length ≤ 3584 → ∃ t, s.load bytes = .ok t ∧
    (∀ (k : Nat) (h : k < bytes.length), t.mem.read (0x200 + k) = bytes[k]) ∧
    ChangesOnly (memParts 0x200 bytes.length) s.asState t.asState

/-- A program that does not fit is a load error with its length, nothing is written, and no step follows
(60_exceptions.md 1, 70_reset_and_hazards.md 1; that nothing is written is the spec's decision D26, log 20). -/
def Obligations.OversizedLoadFails : Prop :=
  ∀ (s : StateRecord) (bytes : List Byte), 3584 < bytes.length →
    (Launch.initialized s).transact (.load bytes) = some (.loadTooLarge bytes.length, .loadFailed s) ∧
    ∀ r, (Launch.loadFailed s).transact (.step r) = none

/-- The launch protocol: one initialize, on a fresh instance, which it leaves initialised; one load, on an initialised instance,
which a program that fits leaves loaded; a step on a loaded instance without a fault, which stays loaded with the state the step of
the record gives for the draw that the host sends, and replies its events or its reason; and no other moves of these three. The
events are those of `stepEvents` where the draw is the one the host's step takes (60_exceptions.md 5, 70_reset_and_hazards.md 1; the
spec's decisions D2, D4 and D12, logs 5 and 19; `stepEvents` and the drawn byte are the model's form, logs 1 and 2). -/
def Obligations.LaunchProtocolHasNoOtherMoves : Prop :=
  (∀ glyphs, Launch.fresh.transact (.initializeWith glyphs) =
    some (.nothing, .initialized (StateRecord.initializeWith glyphs))) ∧
  (∀ (l : Launch) glyphs, l ≠ .fresh → l.transact (.initializeWith glyphs) = none) ∧
  (∀ (tr : Transaction) (p : Reply × Launch), Launch.fresh.transact tr = some p → ∃ glyphs, tr = .initializeWith glyphs) ∧
  (∀ (s : StateRecord) (bytes : List Byte), bytes.length ≤ 3584 → ∃ t, s.load bytes = .ok t ∧
    (Launch.initialized s).transact (.load bytes) = some (.ok, .loaded t)) ∧
  (∀ (l : Launch) bytes p, l.transact (.load bytes) = some p → ∃ s, l = .initialized s) ∧
  (∀ (s : StateRecord) (r : Byte), s.fault = none →
    (∃ t events, s.step r = some (.completed t events) ∧
      (Launch.loaded s).transact (.step r) = some (.completed events, .loaded t)) ∨
    (∃ reason t, s.step r = some (.faulted reason t) ∧ t = { s with fault := some reason } ∧
      (Launch.loaded s).transact (.step r) = some (.faulted reason, .loaded t))) ∧
  (∀ s t : State, step s = .next t → (Launch.loaded s.toStateRecord).transact (.step (Config.rand s.draws)) =
    some (.completed (stepEvents s), .loaded t.toStateRecord)) ∧
  (∀ (l : Launch) r p, l.transact (.step r) = some p → ∃ s, l = .loaded s ∧ s.fault = none)

/-- What each other transaction does between steps: setKeys overwrites the whole keypad, clearRedraw clears the flag, the reads
give the pixels and the flag, and each changes nothing else, the place in the launch protocol included (60_exceptions.md 5; the
transactions are the spec's decisions D1 and D25, when they are allowed is log 19). -/
def Obligations.HostTransactionsTouchOnlyTheirPart : Prop :=
  ∀ (l : Launch) (s : StateRecord), l.state? = some s →
    (∀ keys : Keypad, ∃ t, l.transact (.setKeys keys) = some (.nothing, l.withState t) ∧ t.key = keys ∧
      ChangesOnly ((List.range 16).map .key) s.asState t.asState) ∧
    (∃ t, l.transact .clearRedraw = some (.nothing, l.withState t) ∧ t.redraw = false ∧
      ChangesOnly [.redraw] s.asState t.asState) ∧
    l.transact .readFramebuffer = some (.pixels s.fb, l) ∧ l.transact .readRedraw = some (.flag s.redraw, l) ∧
    ∀ t, (l.withState t).state? = some t ∧
      ((∃ u, l = .initialized u) ↔ ∃ u, l.withState t = .initialized u) ∧
      ((∃ u, l = .loaded u) ↔ ∃ u, l.withState t = .loaded u) ∧
      ((∃ u, l = .loadFailed u) ↔ ∃ u, l.withState t = .loadFailed u)

/-! ### Control transfer -/

/-- 00EE RET: pop, resume two past the popped address, the slot kept; StackUnderflow on an empty stack, nothing committed
(41_control_flow.md, 00EE; the kept slot is the spec's decision D14, the faulted state D4, logs 5 and 16). -/
def Obligations.ReturnResumesAfterTheCall : Prop :=
  EncodedAs .ret 0x00EE ∧
  ∀ s : State,
    (∀ k, s.sp.val = k + 1 → ∃ t, exec .ret s = .next t ∧ t.sp.val = k ∧
      (∀ a : Word, s.stack[k]? = some a → a.toNat + 2 < 0x10000 → t.pc.toNat = a.toNat + 2) ∧
      ChangesOnly [.sp, .pc] s t) ∧
    (s.sp.val = 0 → exec .ret s = .fault (.faulted .stackUnderflow { s with fault := some .stackUnderflow }))

/-- 2nnn CALL nnn: push A itself, jump to nnn; StackOverflow on a full stack, nothing committed (41_control_flow.md, 2nnn; the
faulted state is the spec's decision D4, log 5). -/
def Obligations.CallPushesItsOwnAddress : Prop :=
  ∀ nnn : BitVec 12, EncodedAs (.call nnn) (0x2000 + nnn.toNat) ∧
  ∀ s : State,
    (s.sp.val < 16 → ∃ t, exec (.call nnn) s = .next t ∧ t.stack[s.sp.val]? = some s.pc ∧ t.sp.val = s.sp.val + 1 ∧
      t.pc.toNat = nnn.toNat ∧ ChangesOnly [.stack s.sp.val, .sp, .pc] s t) ∧
    (s.sp.val = 16 → exec (.call nnn) s = .fault (.faulted .stackOverflow { s with fault := some .stackOverflow }))

/-- A call and, from any state its subroutine leaves with the same stack, a return: PC is two past the call and SP is as it was
(95_test_vectors.md L1-5). -/
def Obligations.CallThenReturnRestoresPcAndSp : Prop :=
  ∀ (nnn : BitVec 12) (s : State), s.sp.val < 16 → s.pc.toNat ≤ 0xFFE → ∃ t, exec (.call nnn) s = .next t ∧
    ∀ t' : State, t'.stack = t.stack → t'.sp = t.sp → ∃ u, exec .ret t' = .next u ∧
      u.pc.toNat = s.pc.toNat + 2 ∧ u.sp = s.sp

/-- 1nnn JP nnn (41_control_flow.md R122): PC = nnn, odd or even; a jump to itself leaves the state as it is; a jump to 0xFFF leaves
one whose fetch fails. -/
def Obligations.JumpGoesToItsTarget : Prop :=
  ∀ nnn : BitVec 12, EncodedAs (.jp nnn) (0x1000 + nnn.toNat) ∧
  ∀ s : State, ∃ t, exec (.jp nnn) s = .next t ∧ t.pc.toNat = nnn.toNat ∧ ChangesOnly [.pc] s t ∧
    (nnn.toNat = s.pc.toNat → t = s) ∧ (nnn = 0xFFF → ∃ r, fetch t = .error r)

/-- Bnnn JP V0, nnn: the exact sum, always of V0, with no 12-bit wrap (41_control_flow.md, Bnnn; the spec's decision D6, log 8). -/
def Obligations.ComputedJumpAddsV0Exactly : Prop :=
  ∀ nnn : BitVec 12, EncodedAs (.jpV0 nnn) (0xB000 + nnn.toNat) ∧
  ∀ s : State, ∃ t, exec (.jpV0 nnn) s = .next t ∧ t.pc.toNat = nnn.toNat + (s.getV 0).toNat ∧ ChangesOnly [.pc] s t

/-- 3xkk SE and 4xkk SNE (41_control_flow.md R124, R125): skip one word exactly where the register equals, differs from, the byte. -/
def Obligations.ImmediateSkipsCompareTheRegister : Prop :=
  ∀ (x : Reg) (kk : Byte),
    EncodedAs (.seImm x kk) (0x3000 + 256 * x.val + kk.toNat) ∧ EncodedAs (.sneImm x kk) (0x4000 + 256 * x.val + kk.toNat) ∧
    ∀ s : State,
      (∃ t, exec (.seImm x kk) s = .next t ∧ (s.getV x = kk → PcAdvanced 4 s t) ∧ (s.getV x ≠ kk → PcAdvanced 2 s t) ∧
        ChangesOnly [.pc] s t) ∧
      (∃ t, exec (.sneImm x kk) s = .next t ∧ (s.getV x ≠ kk → PcAdvanced 4 s t) ∧ (s.getV x = kk → PcAdvanced 2 s t) ∧
        ChangesOnly [.pc] s t)

/-- 5xy0 SE and 9xy0 SNE (41_control_flow.md R126, R127): skip one word exactly where the registers are equal, differ; a word of
these groups with another low nibble is unknown. -/
def Obligations.RegisterSkipsCompareTwoRegisters : Prop :=
  ∀ x y : Reg,
    EncodedAs (.seReg x y) (0x5000 + 256 * x.val + 16 * y.val) ∧ EncodedAs (.sneReg x y) (0x9000 + 256 * x.val + 16 * y.val) ∧
    (∀ w : Word, w.toNat / 0x1000 = 0x5 ∨ w.toNat / 0x1000 = 0x9 → w.toNat % 16 ≠ 0 → decode w = .unknown w) ∧
    ∀ s : State,
      (∃ t, exec (.seReg x y) s = .next t ∧ (s.getV x = s.getV y → PcAdvanced 4 s t) ∧
        (s.getV x ≠ s.getV y → PcAdvanced 2 s t) ∧ ChangesOnly [.pc] s t) ∧
      (∃ t, exec (.sneReg x y) s = .next t ∧ (s.getV x ≠ s.getV y → PcAdvanced 4 s t) ∧
        (s.getV x = s.getV y → PcAdvanced 2 s t) ∧ ChangesOnly [.pc] s t)

/-! ### Registers and arithmetic -/

/-- 6xkk LD and 7xkk ADD (42_alu.md R141, R142): the byte, the sum modulo 256; VF written only as the named register. -/
def Obligations.ImmediateLoadAndAdd : Prop :=
  ∀ (x : Reg) (kk : Byte),
    EncodedAs (.ldImm x kk) (0x6000 + 256 * x.val + kk.toNat) ∧ EncodedAs (.addImm x kk) (0x7000 + 256 * x.val + kk.toNat) ∧
    ∀ s : State,
      (∃ t, exec (.ldImm x kk) s = .next t ∧ t.getV x = kk ∧ PcAdvanced 2 s t ∧ ChangesOnly [.v x, .pc] s t) ∧
      (∃ t, exec (.addImm x kk) s = .next t ∧ (t.getV x).toNat = ((s.getV x).toNat + kk.toNat) % 256 ∧ PcAdvanced 2 s t ∧
        ChangesOnly [.v x, .pc] s t)

/-- 8xy0 LD, 8xy1 OR, 8xy2 AND, 8xy3 XOR (42_alu.md R143 to R146): the copy, the bitwise results; no flag. -/
def Obligations.CopyAndBitwiseResults : Prop :=
  ∀ x y : Reg,
    EncodedAs (.ldReg x y) (0x8000 + 256 * x.val + 16 * y.val) ∧ EncodedAs (.orReg x y) (0x8001 + 256 * x.val + 16 * y.val) ∧
    EncodedAs (.andReg x y) (0x8002 + 256 * x.val + 16 * y.val) ∧ EncodedAs (.xorReg x y) (0x8003 + 256 * x.val + 16 * y.val) ∧
    ∀ s : State,
      (∃ t, exec (.ldReg x y) s = .next t ∧ t.getV x = s.getV y ∧ PcAdvanced 2 s t ∧ ChangesOnly [.v x, .pc] s t) ∧
      (∃ t, exec (.orReg x y) s = .next t ∧ (∀ k, (t.getV x).getLsbD k = ((s.getV x).getLsbD k || (s.getV y).getLsbD k)) ∧
        PcAdvanced 2 s t ∧ ChangesOnly [.v x, .pc] s t) ∧
      (∃ t, exec (.andReg x y) s = .next t ∧ (∀ k, (t.getV x).getLsbD k = ((s.getV x).getLsbD k && (s.getV y).getLsbD k)) ∧
        PcAdvanced 2 s t ∧ ChangesOnly [.v x, .pc] s t) ∧
      (∃ t, exec (.xorReg x y) s = .next t ∧ (∀ k, (t.getV x).getLsbD k = ((s.getV x).getLsbD k ^^ (s.getV y).getLsbD k)) ∧
        PcAdvanced 2 s t ∧ ChangesOnly [.v x, .pc] s t)

/-- 8xy4 ADD: the sum modulo 256 and its carry, the flag landing last where x = F (42_alu.md, 8xy4; the order is the spec's
decision D7, log 7). -/
def Obligations.AddSetsSumAndCarry : Prop :=
  ∀ x y : Reg, EncodedAs (.addReg x y) (0x8004 + 256 * x.val + 16 * y.val) ∧
  ∀ s : State, ∃ t, exec (.addReg x y) s = .next t ∧
    (x ≠ VF → (t.getV x).toNat = ((s.getV x).toNat + (s.getV y).toNat) % 256) ∧
    t.getV VF = (if (s.getV x).toNat + (s.getV y).toNat > 255 then 1 else 0) ∧
    PcAdvanced 2 s t ∧ ChangesOnly [.v x, .v VF, .pc] s t

/-- 8xy5 SUB and 8xy7 SUBN: the difference modulo 256 and NOT borrow, equality being no borrow, the flag landing last where x = F
(42_alu.md, 8xy5 and 8xy7; the order is the spec's decision D7, log 7). -/
def Obligations.SubtractionsSetDifferenceAndNotBorrow : Prop :=
  ∀ x y : Reg,
    EncodedAs (.sub x y) (0x8005 + 256 * x.val + 16 * y.val) ∧ EncodedAs (.subn x y) (0x8007 + 256 * x.val + 16 * y.val) ∧
    ∀ s : State,
      (∃ t, exec (.sub x y) s = .next t ∧
        (x ≠ VF → ((t.getV x).toNat : Int) = (((s.getV x).toNat : Int) - (s.getV y).toNat) % 256) ∧
        t.getV VF = (if (s.getV y).toNat > (s.getV x).toNat then 0 else 1) ∧
        PcAdvanced 2 s t ∧ ChangesOnly [.v x, .v VF, .pc] s t) ∧
      (∃ t, exec (.subn x y) s = .next t ∧
        (x ≠ VF → ((t.getV x).toNat : Int) = (((s.getV y).toNat : Int) - (s.getV x).toNat) % 256) ∧
        t.getV VF = (if (s.getV x).toNat > (s.getV y).toNat then 0 else 1) ∧
        PcAdvanced 2 s t ∧ ChangesOnly [.v x, .v VF, .pc] s t)

/-- 8xy6 SHR and 8xyE SHL: Vx shifted by one and the bit shifted out, Vy ignored, the flag landing last where x = F
(42_alu.md, 8xy6 and 8xyE; 90_conflicts.md C7; the order is the spec's decision D7, log 7). -/
def Obligations.ShiftsSetResultAndShiftedOutBit : Prop :=
  ∀ x y : Reg,
    EncodedAs (.shr x y) (0x8006 + 256 * x.val + 16 * y.val) ∧ EncodedAs (.shl x y) (0x800E + 256 * x.val + 16 * y.val) ∧
    ∀ s : State,
      (∃ t, exec (.shr x y) s = .next t ∧ (x ≠ VF → (t.getV x).toNat = (s.getV x).toNat / 2) ∧
        (t.getV VF).toNat = (s.getV x).toNat % 2 ∧ PcAdvanced 2 s t ∧ ChangesOnly [.v x, .v VF, .pc] s t) ∧
      (∃ t, exec (.shl x y) s = .next t ∧ (x ≠ VF → (t.getV x).toNat = (s.getV x).toNat * 2 % 256) ∧
        (t.getV VF).toNat = (s.getV x).toNat / 128 ∧ PcAdvanced 2 s t ∧ ChangesOnly [.v x, .v VF, .pc] s t)

/-- Cxkk RND: the drawn byte AND kk, whatever byte is drawn (`Config.rand` has no value), and the draw is used up
(42_alu.md, Cxkk; the draw as a free value is the spec's decision D12, its form the model's, log 2). -/
def Obligations.RandomByteIsMasked : Prop :=
  ∀ (x : Reg) (kk : Byte), EncodedAs (.rnd x kk) (0xC000 + 256 * x.val + kk.toNat) ∧
  ∀ s : State, ∃ t, exec (.rnd x kk) s = .next t ∧ t.getV x = Config.rand s.draws &&& kk ∧
    (kk = 0 → t.getV x = 0) ∧ t.draws = s.draws + 1 ∧ PcAdvanced 2 s t ∧ ChangesOnly [.v x, .pc, .draws] s t

/-! ### Index register and memory -/

/-- Annn LD I, nnn (43_index_memory.md R170). -/
def Obligations.LoadIndexSetsI : Prop :=
  ∀ nnn : BitVec 12, EncodedAs (.ldI nnn) (0xA000 + nnn.toNat) ∧
  ∀ s : State, ∃ t, exec (.ldI nnn) s = .next t ∧ t.i.toNat = nnn.toNat ∧ PcAdvanced 2 s t ∧ ChangesOnly [.i, .pc] s t

/-- Fx1E ADD I, Vx and Fx29 LD F, Vx: the sum modulo 2^16 with VF unchanged, five times the whole byte
(43_index_memory.md, Fx1E and Fx29; the wrap is the spec's decision D6, the whole byte D22, logs 8 and 15). -/
def Obligations.AddIndexAndGlyphAddress : Prop :=
  ∀ x : Reg,
    EncodedAs (.addI x) (0xF01E + 256 * x.val) ∧ EncodedAs (.ldF x) (0xF029 + 256 * x.val) ∧
    ∀ s : State,
      (∃ t, exec (.addI x) s = .next t ∧ t.i.toNat = (s.i.toNat + (s.getV x).toNat) % 0x10000 ∧ PcAdvanced 2 s t ∧
        ChangesOnly [.i, .pc] s t) ∧
      (∃ t, exec (.ldF x) s = .next t ∧ t.i.toNat = (s.getV x).toNat * 5 ∧ PcAdvanced 2 s t ∧ ChangesOnly [.i, .pc] s t)

/-- Fx33 LD B, Vx: the three decimal digits at I, I + 1, I + 2, I unchanged (43_index_memory.md, Fx33; where it does not
complete is the spec's decision D3, log 10). -/
def Obligations.DecimalDigitsAreStored : Prop :=
  ∀ x : Reg, EncodedAs (.ldB x) (0xF033 + 256 * x.val) ∧
  ∀ s : State, s.i.toNat + 2 ≤ 0xFFF → ∃ t, exec (.ldB x) s = .next t ∧
    (t.mem.read s.i.toNat).toNat = (s.getV x).toNat / 100 ∧
    (t.mem.read (s.i.toNat + 1)).toNat = (s.getV x).toNat / 10 % 10 ∧
    (t.mem.read (s.i.toNat + 2)).toNat = (s.getV x).toNat % 10 ∧
    PcAdvanced 2 s t ∧ ChangesOnly (memParts s.i.toNat 3 ++ [.pc]) s t

/-- Fx55 LD [I], Vx and Fx65 LD Vx, [I]: V0 to Vx inclusive to, from, memory at I upward, I unchanged, registers above x
unchanged (43_index_memory.md, Fx55 and Fx65; where they do not complete is the spec's decision D3, log 10). -/
def Obligations.RegistersAreStoredAndLoaded : Prop :=
  ∀ x : Reg,
    EncodedAs (.ldMemVx x) (0xF055 + 256 * x.val) ∧ EncodedAs (.ldVxMem x) (0xF065 + 256 * x.val) ∧
    ∀ s : State, s.i.toNat + x.val ≤ 0xFFF →
      (∃ t, exec (.ldMemVx x) s = .next t ∧ (∀ k ≤ x, t.mem.read (s.i.toNat + k.val) = s.getV k) ∧ PcAdvanced 2 s t ∧
        ChangesOnly (memParts s.i.toNat (x.val + 1) ++ [.pc]) s t) ∧
      (∃ t, exec (.ldVxMem x) s = .next t ∧ (∀ k ≤ x, t.getV k = s.mem.read (s.i.toNat + k.val)) ∧ PcAdvanced 2 s t ∧
        ChangesOnly (regParts x ++ [.pc]) s t)

/-- An access past 0xFFF faults with its kind and the lowest out-of-range address, and commits nothing; a draw of no rows never
does (43_index_memory.md, 44_display.md, 20_memory.md 1; the spec's decisions D3 and D4, logs 5 and 10). -/
def Obligations.AccessPastMemoryFaults : Prop :=
  ∀ (x y : Reg) (n : BitVec 4) (s : State),
    (s.i.toNat + 2 > 0xFFF → exec (.ldB x) s = .fault (.faulted (.memoryOutOfRange .write (max s.i.toNat 0x1000))
      { s with fault := some (.memoryOutOfRange .write (max s.i.toNat 0x1000)) })) ∧
    (s.i.toNat + x.val > 0xFFF → exec (.ldMemVx x) s = .fault (.faulted (.memoryOutOfRange .write (max s.i.toNat 0x1000))
      { s with fault := some (.memoryOutOfRange .write (max s.i.toNat 0x1000)) })) ∧
    (s.i.toNat + x.val > 0xFFF → exec (.ldVxMem x) s = .fault (.faulted (.memoryOutOfRange .read (max s.i.toNat 0x1000))
      { s with fault := some (.memoryOutOfRange .read (max s.i.toNat 0x1000)) })) ∧
    (n.toNat > 0 → s.i.toNat + n.toNat - 1 > 0xFFF →
      exec (.drw x y n) s = .fault (.faulted (.memoryOutOfRange .read (max s.i.toNat 0x1000))
        { s with fault := some (.memoryOutOfRange .read (max s.i.toNat 0x1000)) })) ∧
    (n = 0 → ∃ t, exec (.drw x y n) s = .next t)

/-- A store and, from any state with that memory and I, a load of the same registers restores them
(95_test_vectors.md L1-8; 43_index_memory.md). -/
def Obligations.StoreThenLoadRestoresRegisters : Prop :=
  ∀ (x : Reg) (s t : State), exec (.ldMemVx x) s = .next t → ∀ u : State, u.mem = t.mem → u.i = t.i →
    ∃ w, exec (.ldVxMem x) u = .next w ∧ (∀ k ≤ x, w.getV k = s.getV k) ∧ (∀ k, x < k → w.getV k = u.getV k)

/-- A store is seen by the next fetch of the bytes it wrote: two stored registers are the word fetched there
(20_memory.md 4; the spec's decision D18, log 17). -/
def Obligations.StoredBytesAreFetched : Prop :=
  ∀ (x k k' : Reg) (s t u : State), exec (.ldMemVx x) s = .next t → k'.val = k.val + 1 → k' ≤ x →
    u.mem = t.mem → u.pc.toNat = s.i.toNat + k.val →
    ∃ w, fetch u = .ok w ∧ w.toNat = (s.getV k).toNat * 256 + (s.getV k').toNat

/-! ### Display -/

/-- 00E0 CLS (44_display.md R190): every pixel 0 and the redraw flag set, whatever was there. -/
def Obligations.ClearZeroesEveryPixel : Prop :=
  EncodedAs .cls 0x00E0 ∧
  ∀ s : State, ∃ t, exec .cls s = .next t ∧ (∀ c r, getPixel t.fb c r = false) ∧ t.redraw = true ∧
    PcAdvanced 2 s t ∧ ChangesOnly (allPixels ++ [.redraw, .pc]) s t

/-- Dxyn DRW: exactly the covered pixels flip, VF is 1 exactly where a covered pixel was set, redraw is set; n = 0 included
(44_display.md 1; bit 7 leftmost is the spec's decision D10, the range check D3, n = 0 D24, VF landing last D7;
logs 6, 7, 10 and 14). -/
def Obligations.DrawXorsTheSprite : Prop :=
  ∀ (x y : Reg) (n : BitVec 4), EncodedAs (.drw x y n) (0xD000 + 256 * x.val + 16 * y.val + n.toNat) ∧
  ∀ s : State, n = 0 ∨ s.i.toNat + n.toNat - 1 ≤ 0xFFF → ∃ t, exec (.drw x y n) s = .next t ∧
    (∀ c r, SpriteCovers s x y n c r → getPixel t.fb c r = !getPixel s.fb c r) ∧
    (∀ c r, ¬ SpriteCovers s x y n c r → getPixel t.fb c r = getPixel s.fb c r) ∧
    ((∃ c r, SpriteCovers s x y n c r ∧ getPixel s.fb c r = true) → t.getV VF = 1) ∧
    ((¬ ∃ c r, SpriteCovers s x y n c r ∧ getPixel s.fb c r = true) → t.getV VF = 0) ∧
    t.redraw = true ∧ PcAdvanced 2 s t ∧ ChangesOnly (allPixels ++ [.v VF, .redraw, .pc]) s t

/-- Drawing the same sprite at the same place again restores every pixel; the second draw reports a collision exactly where a
covered pixel was 0 before the first (44_display.md 1, 95_test_vectors.md L1-6; log 23 on the spec's wording). -/
def Obligations.DrawingTwiceRestoresTheFramebuffer : Prop :=
  ∀ (x y : Reg) (n : BitVec 4) (s t : State), exec (.drw x y n) s = .next t →
    ∃ u, exec (.drw x y n) { t with v := s.v } = .next u ∧ (∀ c r, getPixel u.fb c r = getPixel s.fb c r) ∧
      ((∃ c r, SpriteCovers s x y n c r ∧ getPixel s.fb c r = false) → u.getV VF = 1) ∧
      ((¬ ∃ c r, SpriteCovers s x y n c r ∧ getPixel s.fb c r = false) → u.getV VF = 0)

/-- The wording 'the second draw reports VF = 1 if the sprite has any set bit' (44_display.md, Dxyn corner cases), read without a
condition on what was drawn before. EXPECTED TO FAIL: where every covered pixel was set, the first draw clears it and the
second draw sets it, with no collision (log 23). -/
def Obligations.SecondDrawReportsCollisionForAnySetBit : Prop :=
  ∀ (x y : Reg) (n : BitVec 4) (s t u : State), exec (.drw x y n) s = .next t →
    exec (.drw x y n) { t with v := s.v } = .next u → (∃ c r, SpriteCovers s x y n c r) → u.getV VF = 1

/-! ### Input and timers -/

/-- Ex9E SKP and ExA1 SKNP: skip one word exactly where the key is down, up; a register above 0xF faults and commits nothing
(45_input_timers.md 1; the fault is the spec's decisions D9 and D4, logs 5 and 11). -/
def Obligations.KeySkipsTestTheKey : Prop :=
  ∀ x : Reg,
    EncodedAs (.skp x) (0xE09E + 256 * x.val) ∧ EncodedAs (.sknp x) (0xE0A1 + 256 * x.val) ∧
    ∀ s : State,
      (∀ down, s.key[(s.getV x).toNat]? = some down →
        (∃ t, exec (.skp x) s = .next t ∧ PcAdvanced (if down then 4 else 2) s t ∧ ChangesOnly [.pc] s t) ∧
        (∃ t, exec (.sknp x) s = .next t ∧ PcAdvanced (if down then 2 else 4) s t ∧ ChangesOnly [.pc] s t)) ∧
      ((s.getV x).toNat > 0xF →
        exec (.skp x) s = .fault (.faulted (.keyIndexOutOfRange (s.getV x))
          { s with fault := some (.keyIndexOutOfRange (s.getV x)) }) ∧
        exec (.sknp x) s = .fault (.faulted (.keyIndexOutOfRange (s.getV x))
          { s with fault := some (.keyIndexOutOfRange (s.getV x)) }))

/-- Fx0A LD Vx, K: with no key down nothing changes and PC stays, and the step is its tick alone; else V[x] is the lowest key down
(45_input_timers.md, Fx0A; the tick of a waiting step is the spec's decision D23, log 13). -/
def Obligations.KeyWaitStaysOrTakesTheLowestKey : Prop :=
  ∀ x : Reg, EncodedAs (.ldVxK x) (0xF00A + 256 * x.val) ∧
  ∀ s : State,
    ((∀ k : Fin 16, s.key[k.val] = false) → exec (.ldVxK x) s = .next s) ∧
    (∀ w : Word, s.fault = none → fetch s = .ok w → decode w = .instr (.ldVxK x) → (∀ k : Fin 16, s.key[k.val] = false) →
      step s = .next s.tick) ∧
    (∀ k : Fin 16, s.key[k.val] = true → (∀ j : Fin 16, j < k → s.key[j.val] = false) →
      ∃ t, exec (.ldVxK x) s = .next t ∧ (t.getV x).toNat = k.val ∧ PcAdvanced 2 s t ∧ ChangesOnly [.v x, .pc] s t)

/-- Fx07 LD Vx, DT (45_input_timers.md R212): DT as it was before this step's tick. -/
def Obligations.DelayTimerIsReadBeforeTheTick : Prop :=
  ∀ x : Reg, EncodedAs (.ldVxDT x) (0xF007 + 256 * x.val) ∧
  ∀ s : State, ∃ t, exec (.ldVxDT x) s = .next t ∧ t.getV x = s.dt ∧ t.tick.getV x = s.dt ∧
    t.tick.dt.toNat = s.dt.toNat - 1 ∧ PcAdvanced 2 s t ∧ ChangesOnly [.v x, .pc] s t

/-- Fx15 LD DT, Vx and Fx18 LD ST, Vx (45_input_timers.md, Fx15 and Fx18; the tick of a value written in the same step is the
spec's decision D23, log 13): the timer takes V[x], the same step's tick counts the new
value down and `n` ticks count it down by `n`, to 0 and no further; ST written as 1 beeps in that step, as 0 it does not. -/
def Obligations.TimersAreSetThenTicked : Prop :=
  ∀ x : Reg,
    EncodedAs (.ldDTVx x) (0xF015 + 256 * x.val) ∧ EncodedAs (.ldSTVx x) (0xF018 + 256 * x.val) ∧
    ∀ s : State,
      (∃ t, exec (.ldDTVx x) s = .next t ∧ t.dt = s.getV x ∧ (∀ n, (State.tick^[n] t).dt.toNat = (s.getV x).toNat - n) ∧
        PcAdvanced 2 s t ∧ ChangesOnly [.dt, .pc] s t) ∧
      (∃ t, exec (.ldSTVx x) s = .next t ∧ t.st = s.getV x ∧ (∀ n, (State.tick^[n] t).st.toNat = (s.getV x).toNat - n) ∧
        t.tickEvents = (if (s.getV x).toNat = 1 then [.beep] else []) ∧ PcAdvanced 2 s t ∧
        ChangesOnly [.st, .pc] s t)
end

