-- ==== Sys2Proof/Laws/Decode.lean ====
section
/-!
SUPPORT. The fields of a word made by the encoder's three word builders, and which word each builder makes as a number.
-/
namespace Sys2Proof

theorem toNat_wordNnn {op : Nat} (hop : op < 16) (nnn : BitVec 12) :
    (wordNnn op nnn).toNat = op * 4096 + nnn.toNat := by
  have := nnn.isLt
  simp only [wordNnn, BitVec.toNat_ofNat]; omega

theorem toNat_wordXkk {op : Nat} (hop : op < 16) (x : Reg) (kk : Byte) :
    (wordXkk op x kk).toNat = op * 4096 + x.val * 256 + kk.toNat := by
  have := x.isLt; have := kk.isLt
  simp only [wordXkk, BitVec.toNat_ofNat]; omega

theorem toNat_wordXyn {op : Nat} (hop : op < 16) (x y : Reg) (n : BitVec 4) :
    (wordXyn op x y n).toNat = op * 4096 + x.val * 256 + y.val * 16 + n.toNat := by
  have := x.isLt; have := y.isLt; have := n.isLt
  simp only [wordXyn, BitVec.toNat_ofNat]; omega

theorem opField_wordNnn {op : Nat} (hop : op < 16) (nnn : BitVec 12) : opField (wordNnn op nnn) = op := by
  have := nnn.isLt
  rw [opField, toNat_wordNnn hop]; omega

theorem opField_wordXkk {op : Nat} (hop : op < 16) (x : Reg) (kk : Byte) : opField (wordXkk op x kk) = op := by
  have := x.isLt; have := kk.isLt
  rw [opField, toNat_wordXkk hop]; omega

theorem opField_wordXyn {op : Nat} (hop : op < 16) (x y : Reg) (n : BitVec 4) : opField (wordXyn op x y n) = op := by
  have := x.isLt; have := y.isLt; have := n.isLt
  rw [opField, toNat_wordXyn hop]; omega

theorem nnnField_wordNnn {op : Nat} (hop : op < 16) (nnn : BitVec 12) : nnnField (wordNnn op nnn) = nnn := by
  have := nnn.isLt
  apply BitVec.eq_of_toNat_eq
  rw [nnnField, toNat_wordNnn hop, BitVec.toNat_ofNat]; omega

theorem xField_wordXkk {op : Nat} (hop : op < 16) (x : Reg) (kk : Byte) : xField (wordXkk op x kk) = x := by
  have := x.isLt; have := kk.isLt
  apply Fin.ext
  simp only [xField, toNat_wordXkk hop]; omega

theorem kkField_wordXkk {op : Nat} (hop : op < 16) (x : Reg) (kk : Byte) : kkField (wordXkk op x kk) = kk := by
  have := x.isLt; have := kk.isLt
  apply BitVec.eq_of_toNat_eq
  rw [kkField, toNat_wordXkk hop, BitVec.toNat_ofNat]; omega

/-- The low byte of a word of format X is its sub-opcode. -/
theorem lowByte_wordXkk {op : Nat} (hop : op < 16) (x : Reg) (kk : Byte) :
    (wordXkk op x kk).toNat % 256 = kk.toNat := by
  have := x.isLt; have := kk.isLt
  rw [toNat_wordXkk hop]; omega

theorem xField_wordXyn {op : Nat} (hop : op < 16) (x y : Reg) (n : BitVec 4) : xField (wordXyn op x y n) = x := by
  have := x.isLt; have := y.isLt; have := n.isLt
  apply Fin.ext
  simp only [xField, toNat_wordXyn hop]; omega

theorem yField_wordXyn {op : Nat} (hop : op < 16) (x y : Reg) (n : BitVec 4) : yField (wordXyn op x y n) = y := by
  have := x.isLt; have := y.isLt; have := n.isLt
  apply Fin.ext
  simp only [yField, toNat_wordXyn hop]; omega

theorem nField_wordXyn {op : Nat} (hop : op < 16) (x y : Reg) (n : BitVec 4) : nField (wordXyn op x y n) = n := by
  have := x.isLt; have := y.isLt; have := n.isLt
  apply BitVec.eq_of_toNat_eq
  rw [nField, toNat_wordXyn hop, BitVec.toNat_ofNat]; omega

/-- The low nibble of a word of format XY is its sub-opcode. -/
theorem lowNibble_wordXyn {op : Nat} (hop : op < 16) (x y : Reg) (n : BitVec 4) :
    (wordXyn op x y n).toNat % 16 = n.toNat := by
  have := x.isLt; have := y.isLt; have := n.isLt
  rw [toNat_wordXyn hop]; omega

/-- The mask of the primary opcode keeps the top nibble. -/
theorem and_F000 {n : Nat} (h : n < 2 ^ 16) : n &&& 0xF000 = n / 4096 * 4096 := by
  have e : n / 4096 * 4096 = (n >>> 12) <<< 12 := by
    rw [Nat.shiftLeft_eq, Nat.shiftRight_eq_div_pow]
  rw [e]
  apply Nat.eq_of_testBit_eq
  intro k
  rw [Nat.testBit_and, Nat.testBit_shiftLeft, Nat.testBit_shiftRight]
  by_cases hk : k < 16
  · interval_cases k <;> simp [Nat.testBit, Nat.shiftRight_eq_div_pow]
  · have hz : n.testBit k = false :=
      Nat.testBit_lt_two_pow (lt_of_lt_of_le h (Nat.pow_le_pow_right (by decide) (by omega)))
    have hk' : 12 + (k - 12) = k := by omega
    rw [hk', hz, Bool.false_and, Bool.and_false]

/-- A mask of the primary opcode and the low `k` bits keeps just those. -/
theorem and_F000_or_low {n k : Nat} (h : n < 2 ^ 16) (hk : k ≤ 12) :
    n &&& (0xF000 ||| (2 ^ k - 1)) = n / 4096 * 4096 + n % 2 ^ k := by
  have hlt : n % 2 ^ k < 2 ^ 12 :=
    lt_of_lt_of_le (Nat.mod_lt _ (Nat.two_pow_pos k)) (Nat.pow_le_pow_right (by decide) hk)
  rw [Nat.and_or_distrib_left, and_F000 h, Nat.and_two_pow_sub_one_eq_mod, Nat.mul_comm]
  exact (Nat.two_pow_add_eq_or_of_lt hlt _).symm

/-- Mask 0xF000, of formats NNN, XKK and XYN (30_encoding.md R75). -/
theorem toNat_and_F000 (w : Word) : (w &&& 0xF000#16).toNat = w.toNat / 4096 * 4096 := by
  rw [BitVec.toNat_and]; exact and_F000 w.isLt

/-- Mask 0xF00F, of format XY (30_encoding.md R75). -/
theorem toNat_and_F00F (w : Word) : (w &&& 0xF00F#16).toNat = w.toNat / 4096 * 4096 + w.toNat % 16 := by
  rw [BitVec.toNat_and]; exact and_F000_or_low (k := 4) w.isLt (by decide)

/-- Mask 0xF0FF, of format X (30_encoding.md R75). -/
theorem toNat_and_F0FF (w : Word) : (w &&& 0xF0FF#16).toNat = w.toNat / 4096 * 4096 + w.toNat % 256 := by
  rw [BitVec.toNat_and]; exact and_F000_or_low (k := 8) w.isLt (by decide)

/-- Mask 0xFFFF, of format FIXED (30_encoding.md R75). -/
theorem and_FFFF (w : Word) : w &&& 0xFFFF#16 = w := by
  exact BitVec.and_allOnes

end Sys2Proof
end

