-- ==== Sys2Proof/Laws/State.lean ====
section
/-!
SUPPORT. One lemma per field per update of the state, so that no later proof unfolds a record update.
-/
namespace Sys2Proof.Machine

@[simp] theorem State.setV_mem (s : State) (x : Reg) (b : Byte) : (s.setV x b).mem = s.mem := rfl

@[simp] theorem State.setV_v (s : State) (x : Reg) (b : Byte) : (s.setV x b).v = s.v.set x.val b := rfl

@[simp] theorem State.setV_i (s : State) (x : Reg) (b : Byte) : (s.setV x b).i = s.i := rfl

@[simp] theorem State.setV_pc (s : State) (x : Reg) (b : Byte) : (s.setV x b).pc = s.pc := rfl

@[simp] theorem State.setV_stack (s : State) (x : Reg) (b : Byte) : (s.setV x b).stack = s.stack := rfl

@[simp] theorem State.setV_sp (s : State) (x : Reg) (b : Byte) : (s.setV x b).sp = s.sp := rfl

@[simp] theorem State.setV_dt (s : State) (x : Reg) (b : Byte) : (s.setV x b).dt = s.dt := rfl

@[simp] theorem State.setV_st (s : State) (x : Reg) (b : Byte) : (s.setV x b).st = s.st := rfl

@[simp] theorem State.setV_fb (s : State) (x : Reg) (b : Byte) : (s.setV x b).fb = s.fb := rfl

@[simp] theorem State.setV_redraw (s : State) (x : Reg) (b : Byte) : (s.setV x b).redraw = s.redraw := rfl

@[simp] theorem State.setV_key (s : State) (x : Reg) (b : Byte) : (s.setV x b).key = s.key := rfl

@[simp] theorem State.setV_fault (s : State) (x : Reg) (b : Byte) : (s.setV x b).fault = s.fault := rfl

@[simp] theorem State.setV_draws (s : State) (x : Reg) (b : Byte) : (s.setV x b).draws = s.draws := rfl

@[simp] theorem State.setResultAndFlag_mem (s : State) (x : Reg) (b f : Byte) : (s.setResultAndFlag x b f).mem = s.mem := rfl

@[simp] theorem State.setResultAndFlag_v (s : State) (x : Reg) (b f : Byte) : (s.setResultAndFlag x b f).v = (s.v.set x.val b).set VF.val f := rfl

@[simp] theorem State.setResultAndFlag_i (s : State) (x : Reg) (b f : Byte) : (s.setResultAndFlag x b f).i = s.i := rfl

@[simp] theorem State.setResultAndFlag_pc (s : State) (x : Reg) (b f : Byte) : (s.setResultAndFlag x b f).pc = s.pc := rfl

@[simp] theorem State.setResultAndFlag_stack (s : State) (x : Reg) (b f : Byte) : (s.setResultAndFlag x b f).stack = s.stack := rfl

@[simp] theorem State.setResultAndFlag_sp (s : State) (x : Reg) (b f : Byte) : (s.setResultAndFlag x b f).sp = s.sp := rfl

@[simp] theorem State.setResultAndFlag_dt (s : State) (x : Reg) (b f : Byte) : (s.setResultAndFlag x b f).dt = s.dt := rfl

@[simp] theorem State.setResultAndFlag_st (s : State) (x : Reg) (b f : Byte) : (s.setResultAndFlag x b f).st = s.st := rfl

@[simp] theorem State.setResultAndFlag_fb (s : State) (x : Reg) (b f : Byte) : (s.setResultAndFlag x b f).fb = s.fb := rfl

@[simp] theorem State.setResultAndFlag_redraw (s : State) (x : Reg) (b f : Byte) : (s.setResultAndFlag x b f).redraw = s.redraw := rfl

@[simp] theorem State.setResultAndFlag_key (s : State) (x : Reg) (b f : Byte) : (s.setResultAndFlag x b f).key = s.key := rfl

@[simp] theorem State.setResultAndFlag_fault (s : State) (x : Reg) (b f : Byte) : (s.setResultAndFlag x b f).fault = s.fault := rfl

@[simp] theorem State.setResultAndFlag_draws (s : State) (x : Reg) (b f : Byte) : (s.setResultAndFlag x b f).draws = s.draws := rfl

@[simp] theorem State.jump_mem (s : State) (n : Nat) : (s.jump n).mem = s.mem := rfl

@[simp] theorem State.jump_v (s : State) (n : Nat) : (s.jump n).v = s.v := rfl

@[simp] theorem State.jump_i (s : State) (n : Nat) : (s.jump n).i = s.i := rfl

@[simp] theorem State.jump_pc (s : State) (n : Nat) : (s.jump n).pc = BitVec.ofNat 16 n := rfl

@[simp] theorem State.jump_stack (s : State) (n : Nat) : (s.jump n).stack = s.stack := rfl

@[simp] theorem State.jump_sp (s : State) (n : Nat) : (s.jump n).sp = s.sp := rfl

@[simp] theorem State.jump_dt (s : State) (n : Nat) : (s.jump n).dt = s.dt := rfl

@[simp] theorem State.jump_st (s : State) (n : Nat) : (s.jump n).st = s.st := rfl

@[simp] theorem State.jump_fb (s : State) (n : Nat) : (s.jump n).fb = s.fb := rfl

@[simp] theorem State.jump_redraw (s : State) (n : Nat) : (s.jump n).redraw = s.redraw := rfl

@[simp] theorem State.jump_key (s : State) (n : Nat) : (s.jump n).key = s.key := rfl

@[simp] theorem State.jump_fault (s : State) (n : Nat) : (s.jump n).fault = s.fault := rfl

@[simp] theorem State.jump_draws (s : State) (n : Nat) : (s.jump n).draws = s.draws := rfl

@[simp] theorem State.seq_mem (s : State) : (s.seq).mem = s.mem := rfl

@[simp] theorem State.seq_v (s : State) : (s.seq).v = s.v := rfl

@[simp] theorem State.seq_i (s : State) : (s.seq).i = s.i := rfl

@[simp] theorem State.seq_pc (s : State) : (s.seq).pc = BitVec.ofNat 16 (s.pc.toNat + 2) := rfl

@[simp] theorem State.seq_stack (s : State) : (s.seq).stack = s.stack := rfl

@[simp] theorem State.seq_sp (s : State) : (s.seq).sp = s.sp := rfl

@[simp] theorem State.seq_dt (s : State) : (s.seq).dt = s.dt := rfl

@[simp] theorem State.seq_st (s : State) : (s.seq).st = s.st := rfl

@[simp] theorem State.seq_fb (s : State) : (s.seq).fb = s.fb := rfl

@[simp] theorem State.seq_redraw (s : State) : (s.seq).redraw = s.redraw := rfl

@[simp] theorem State.seq_key (s : State) : (s.seq).key = s.key := rfl

@[simp] theorem State.seq_fault (s : State) : (s.seq).fault = s.fault := rfl

@[simp] theorem State.seq_draws (s : State) : (s.seq).draws = s.draws := rfl

@[simp] theorem State.skipIf_mem (s : State) (c : Bool) : (s.skipIf c).mem = s.mem := rfl

@[simp] theorem State.skipIf_v (s : State) (c : Bool) : (s.skipIf c).v = s.v := rfl

@[simp] theorem State.skipIf_i (s : State) (c : Bool) : (s.skipIf c).i = s.i := rfl

@[simp] theorem State.skipIf_pc (s : State) (c : Bool) : (s.skipIf c).pc = BitVec.ofNat 16 (if c then s.pc.toNat + 4 else s.pc.toNat + 2) := rfl

@[simp] theorem State.skipIf_stack (s : State) (c : Bool) : (s.skipIf c).stack = s.stack := rfl

@[simp] theorem State.skipIf_sp (s : State) (c : Bool) : (s.skipIf c).sp = s.sp := rfl

@[simp] theorem State.skipIf_dt (s : State) (c : Bool) : (s.skipIf c).dt = s.dt := rfl

@[simp] theorem State.skipIf_st (s : State) (c : Bool) : (s.skipIf c).st = s.st := rfl

@[simp] theorem State.skipIf_fb (s : State) (c : Bool) : (s.skipIf c).fb = s.fb := rfl

@[simp] theorem State.skipIf_redraw (s : State) (c : Bool) : (s.skipIf c).redraw = s.redraw := rfl

@[simp] theorem State.skipIf_key (s : State) (c : Bool) : (s.skipIf c).key = s.key := rfl

@[simp] theorem State.skipIf_fault (s : State) (c : Bool) : (s.skipIf c).fault = s.fault := rfl

@[simp] theorem State.skipIf_draws (s : State) (c : Bool) : (s.skipIf c).draws = s.draws := rfl

@[simp] theorem State.stay_mem (s : State) : (s.stay).mem = s.mem := rfl

@[simp] theorem State.stay_v (s : State) : (s.stay).v = s.v := rfl

@[simp] theorem State.stay_i (s : State) : (s.stay).i = s.i := rfl

@[simp] theorem State.stay_stack (s : State) : (s.stay).stack = s.stack := rfl

@[simp] theorem State.stay_sp (s : State) : (s.stay).sp = s.sp := rfl

@[simp] theorem State.stay_dt (s : State) : (s.stay).dt = s.dt := rfl

@[simp] theorem State.stay_st (s : State) : (s.stay).st = s.st := rfl

@[simp] theorem State.stay_fb (s : State) : (s.stay).fb = s.fb := rfl

@[simp] theorem State.stay_redraw (s : State) : (s.stay).redraw = s.redraw := rfl

@[simp] theorem State.stay_key (s : State) : (s.stay).key = s.key := rfl

@[simp] theorem State.stay_fault (s : State) : (s.stay).fault = s.fault := rfl

@[simp] theorem State.stay_draws (s : State) : (s.stay).draws = s.draws := rfl

@[simp] theorem StateRecord.toStateRecord_asState (s : StateRecord) : s.asState.toStateRecord = s := rfl

@[simp] theorem State.toStateRecord_reset : State.reset.toStateRecord = StateRecord.reset := rfl

@[simp] theorem StateRecord.setKeys_mem (s : StateRecord) (k : Keypad) : (s.setKeys k).mem = s.mem := rfl

@[simp] theorem StateRecord.setKeys_v (s : StateRecord) (k : Keypad) : (s.setKeys k).v = s.v := rfl

@[simp] theorem StateRecord.setKeys_i (s : StateRecord) (k : Keypad) : (s.setKeys k).i = s.i := rfl

@[simp] theorem StateRecord.setKeys_pc (s : StateRecord) (k : Keypad) : (s.setKeys k).pc = s.pc := rfl

@[simp] theorem StateRecord.setKeys_stack (s : StateRecord) (k : Keypad) : (s.setKeys k).stack = s.stack := rfl

@[simp] theorem StateRecord.setKeys_sp (s : StateRecord) (k : Keypad) : (s.setKeys k).sp = s.sp := rfl

@[simp] theorem StateRecord.setKeys_dt (s : StateRecord) (k : Keypad) : (s.setKeys k).dt = s.dt := rfl

@[simp] theorem StateRecord.setKeys_st (s : StateRecord) (k : Keypad) : (s.setKeys k).st = s.st := rfl

@[simp] theorem StateRecord.setKeys_fb (s : StateRecord) (k : Keypad) : (s.setKeys k).fb = s.fb := rfl

@[simp] theorem StateRecord.setKeys_redraw (s : StateRecord) (k : Keypad) : (s.setKeys k).redraw = s.redraw := rfl

@[simp] theorem StateRecord.setKeys_key (s : StateRecord) (k : Keypad) : (s.setKeys k).key = k := rfl

@[simp] theorem StateRecord.setKeys_fault (s : StateRecord) (k : Keypad) : (s.setKeys k).fault = s.fault := rfl

@[simp] theorem StateRecord.clearRedraw_mem (s : StateRecord) : (s.clearRedraw).mem = s.mem := rfl

@[simp] theorem StateRecord.clearRedraw_v (s : StateRecord) : (s.clearRedraw).v = s.v := rfl

@[simp] theorem StateRecord.clearRedraw_i (s : StateRecord) : (s.clearRedraw).i = s.i := rfl

@[simp] theorem StateRecord.clearRedraw_pc (s : StateRecord) : (s.clearRedraw).pc = s.pc := rfl

@[simp] theorem StateRecord.clearRedraw_stack (s : StateRecord) : (s.clearRedraw).stack = s.stack := rfl

@[simp] theorem StateRecord.clearRedraw_sp (s : StateRecord) : (s.clearRedraw).sp = s.sp := rfl

@[simp] theorem StateRecord.clearRedraw_dt (s : StateRecord) : (s.clearRedraw).dt = s.dt := rfl

@[simp] theorem StateRecord.clearRedraw_st (s : StateRecord) : (s.clearRedraw).st = s.st := rfl

@[simp] theorem StateRecord.clearRedraw_fb (s : StateRecord) : (s.clearRedraw).fb = s.fb := rfl

@[simp] theorem StateRecord.clearRedraw_redraw (s : StateRecord) : (s.clearRedraw).redraw = false := rfl

@[simp] theorem StateRecord.clearRedraw_key (s : StateRecord) : (s.clearRedraw).key = s.key := rfl

@[simp] theorem StateRecord.clearRedraw_fault (s : StateRecord) : (s.clearRedraw).fault = s.fault := rfl

@[simp] theorem State.drawByte_mem (s : State) : (s.drawByte.2).mem = s.mem := rfl

@[simp] theorem State.drawByte_v (s : State) : (s.drawByte.2).v = s.v := rfl

@[simp] theorem State.drawByte_i (s : State) : (s.drawByte.2).i = s.i := rfl

@[simp] theorem State.drawByte_pc (s : State) : (s.drawByte.2).pc = s.pc := rfl

@[simp] theorem State.drawByte_stack (s : State) : (s.drawByte.2).stack = s.stack := rfl

@[simp] theorem State.drawByte_sp (s : State) : (s.drawByte.2).sp = s.sp := rfl

@[simp] theorem State.drawByte_dt (s : State) : (s.drawByte.2).dt = s.dt := rfl

@[simp] theorem State.drawByte_st (s : State) : (s.drawByte.2).st = s.st := rfl

@[simp] theorem State.drawByte_fb (s : State) : (s.drawByte.2).fb = s.fb := rfl

@[simp] theorem State.drawByte_redraw (s : State) : (s.drawByte.2).redraw = s.redraw := rfl

@[simp] theorem State.drawByte_key (s : State) : (s.drawByte.2).key = s.key := rfl

@[simp] theorem State.drawByte_fault (s : State) : (s.drawByte.2).fault = s.fault := rfl

@[simp] theorem State.drawByte_draws (s : State) : (s.drawByte.2).draws = s.draws + 1 := rfl

@[simp] theorem State.tickDelay_mem (s : State) : (s.tickDelay).mem = s.mem := by unfold State.tickDelay; split <;> rfl

@[simp] theorem State.tickDelay_v (s : State) : (s.tickDelay).v = s.v := by unfold State.tickDelay; split <;> rfl

@[simp] theorem State.tickDelay_i (s : State) : (s.tickDelay).i = s.i := by unfold State.tickDelay; split <;> rfl

@[simp] theorem State.tickDelay_pc (s : State) : (s.tickDelay).pc = s.pc := by unfold State.tickDelay; split <;> rfl

@[simp] theorem State.tickDelay_stack (s : State) : (s.tickDelay).stack = s.stack := by unfold State.tickDelay; split <;> rfl

@[simp] theorem State.tickDelay_sp (s : State) : (s.tickDelay).sp = s.sp := by unfold State.tickDelay; split <;> rfl

@[simp] theorem State.tickDelay_st (s : State) : (s.tickDelay).st = s.st := by unfold State.tickDelay; split <;> rfl

@[simp] theorem State.tickDelay_fb (s : State) : (s.tickDelay).fb = s.fb := by unfold State.tickDelay; split <;> rfl

@[simp] theorem State.tickDelay_redraw (s : State) : (s.tickDelay).redraw = s.redraw := by unfold State.tickDelay; split <;> rfl

@[simp] theorem State.tickDelay_key (s : State) : (s.tickDelay).key = s.key := by unfold State.tickDelay; split <;> rfl

@[simp] theorem State.tickDelay_fault (s : State) : (s.tickDelay).fault = s.fault := by unfold State.tickDelay; split <;> rfl

@[simp] theorem State.tickDelay_draws (s : State) : (s.tickDelay).draws = s.draws := by unfold State.tickDelay; split <;> rfl

@[simp] theorem State.tickSound_mem (s : State) : (s.tickSound).mem = s.mem := by unfold State.tickSound; split <;> rfl

@[simp] theorem State.tickSound_v (s : State) : (s.tickSound).v = s.v := by unfold State.tickSound; split <;> rfl

@[simp] theorem State.tickSound_i (s : State) : (s.tickSound).i = s.i := by unfold State.tickSound; split <;> rfl

@[simp] theorem State.tickSound_pc (s : State) : (s.tickSound).pc = s.pc := by unfold State.tickSound; split <;> rfl

@[simp] theorem State.tickSound_stack (s : State) : (s.tickSound).stack = s.stack := by unfold State.tickSound; split <;> rfl

@[simp] theorem State.tickSound_sp (s : State) : (s.tickSound).sp = s.sp := by unfold State.tickSound; split <;> rfl

@[simp] theorem State.tickSound_dt (s : State) : (s.tickSound).dt = s.dt := by unfold State.tickSound; split <;> rfl

@[simp] theorem State.tickSound_fb (s : State) : (s.tickSound).fb = s.fb := by unfold State.tickSound; split <;> rfl

@[simp] theorem State.tickSound_redraw (s : State) : (s.tickSound).redraw = s.redraw := by unfold State.tickSound; split <;> rfl

@[simp] theorem State.tickSound_key (s : State) : (s.tickSound).key = s.key := by unfold State.tickSound; split <;> rfl

@[simp] theorem State.tickSound_fault (s : State) : (s.tickSound).fault = s.fault := by unfold State.tickSound; split <;> rfl

@[simp] theorem State.tickSound_draws (s : State) : (s.tickSound).draws = s.draws := by unfold State.tickSound; split <;> rfl

@[simp] theorem State.tick_mem (s : State) : (s.tick).mem = s.mem := by simp [State.tick]

@[simp] theorem State.tick_v (s : State) : (s.tick).v = s.v := by simp [State.tick]

@[simp] theorem State.tick_i (s : State) : (s.tick).i = s.i := by simp [State.tick]

@[simp] theorem State.tick_pc (s : State) : (s.tick).pc = s.pc := by simp [State.tick]

@[simp] theorem State.tick_stack (s : State) : (s.tick).stack = s.stack := by simp [State.tick]

@[simp] theorem State.tick_sp (s : State) : (s.tick).sp = s.sp := by simp [State.tick]

@[simp] theorem State.tick_fb (s : State) : (s.tick).fb = s.fb := by simp [State.tick]

@[simp] theorem State.tick_redraw (s : State) : (s.tick).redraw = s.redraw := by simp [State.tick]

@[simp] theorem State.tick_key (s : State) : (s.tick).key = s.key := by simp [State.tick]

@[simp] theorem State.tick_fault (s : State) : (s.tick).fault = s.fault := by simp [State.tick]

@[simp] theorem State.tick_draws (s : State) : (s.tick).draws = s.draws := by simp [State.tick]

@[simp] theorem State.placeWord_v (s : State) (w : Word) : (s.placeWord w).v = s.v := by unfold State.placeWord; split <;> rfl

@[simp] theorem State.placeWord_i (s : State) (w : Word) : (s.placeWord w).i = s.i := by unfold State.placeWord; split <;> rfl

@[simp] theorem State.placeWord_pc (s : State) (w : Word) : (s.placeWord w).pc = s.pc := by unfold State.placeWord; split <;> rfl

@[simp] theorem State.placeWord_stack (s : State) (w : Word) : (s.placeWord w).stack = s.stack := by unfold State.placeWord; split <;> rfl

@[simp] theorem State.placeWord_sp (s : State) (w : Word) : (s.placeWord w).sp = s.sp := by unfold State.placeWord; split <;> rfl

@[simp] theorem State.placeWord_dt (s : State) (w : Word) : (s.placeWord w).dt = s.dt := by unfold State.placeWord; split <;> rfl

@[simp] theorem State.placeWord_st (s : State) (w : Word) : (s.placeWord w).st = s.st := by unfold State.placeWord; split <;> rfl

@[simp] theorem State.placeWord_fb (s : State) (w : Word) : (s.placeWord w).fb = s.fb := by unfold State.placeWord; split <;> rfl

@[simp] theorem State.placeWord_redraw (s : State) (w : Word) : (s.placeWord w).redraw = s.redraw := by unfold State.placeWord; split <;> rfl

@[simp] theorem State.placeWord_key (s : State) (w : Word) : (s.placeWord w).key = s.key := by unfold State.placeWord; split <;> rfl

@[simp] theorem State.placeWord_fault (s : State) (w : Word) : (s.placeWord w).fault = s.fault := by unfold State.placeWord; split <;> rfl

@[simp] theorem State.placeWord_draws (s : State) (w : Word) : (s.placeWord w).draws = s.draws := by unfold State.placeWord; split <;> rfl

/-- Kind Stay commits A itself (40_cycle.md R104). -/
@[simp] theorem State.stay_eq (s : State) : s.stay = s := by
  simp [State.stay, State.jump]

end Sys2Proof.Machine
end

