-- ==== Sys2Proof/Laws/Ops.lean ====
section
/-!
SUPPORT. For each shared operation, one lemma that says everything it can do; a proof about an instruction cites these and does
not unfold the operation.
-/
namespace Sys2Proof.Machine

/-! ### Registers -/

theorem State.getV_setV (s : State) (x : Reg) (b : Byte) (y : Reg) :
    (s.setV x b).getV y = if y = x then b else s.getV y := by
  simp only [State.getV, State.setV_v, Vector.getElem_set, Fin.ext_iff]
  by_cases h : y.val = x.val <;> simp [h, Ne.symm]

@[simp] theorem State.getV_setV_same (s : State) (x : Reg) (b : Byte) : (s.setV x b).getV x = b := by
  rw [State.getV_setV, if_pos rfl]

/-- A result and its flag: VF holds the flag, also where VF is the destination (42_alu.md R140). -/
theorem State.getV_setResultAndFlag (s : State) (x : Reg) (b f : Byte) (y : Reg) :
    (s.setResultAndFlag x b f).getV y = if y = VF then f else if y = x then b else s.getV y := by
  rw [State.setResultAndFlag, State.getV_setV, State.getV_setV]

/-- Reading a register depends on the register file alone. -/
theorem State.getV_congr {s t : State} (h : t.v = s.v) (x : Reg) : t.getV x = s.getV x := by
  simp only [State.getV, h]

theorem getElem?_writeRegs (v : Vector Byte 16) (k : Nat) (bs : List Byte) (j : Nat) (hj : j < 16) :
    (writeRegs v k bs)[j] = if k ≤ j ∧ j < k + bs.length then bs.getD (j - k) 0 else v[j] := by
  induction bs generalizing v k with
  | nil => simp [writeRegs]
  | cons b bs ih =>
    rw [writeRegs, ih, List.length_cons, Vector.getElem_setIfInBounds]
    by_cases hk : k = j
    · subst hk; simp
    · by_cases hr : k + 1 ≤ j ∧ j < k + 1 + bs.length
      · have hs : j - k = j - (k + 1) + 1 := by omega
        rw [if_pos hr, if_pos (by omega), hs, List.getD_cons_succ]
      · rw [if_neg hr, if_neg hk, if_neg (by omega)]

/-! ### Faults and the range check -/

@[simp] theorem raise_ne_next (r : FaultReason) (s t : State) : raise r s ≠ .next t := by simp [raise]

@[simp] theorem raise_ne_refused (r : FaultReason) (s : State) (f : Refusal) : raise r s ≠ .refused f := by simp [raise]

theorem raise_eq_fault {r : FaultReason} {s : State} {f : Fault} :
    raise r s = .fault f ↔ f = .faulted r { s with fault := some r } := by
  simp [raise, eq_comm]

theorem accessInRange_iff {a n : Nat} : accessInRange a n = true ↔ n = 0 ∨ a + n - 1 ≤ 0xFFF := by
  simp [accessInRange]

/-- A checked access goes on where it is in range, and raises MemoryOutOfRange where it is not (20_memory.md R53). -/
theorem withAccess_eq (kind : AccessKind) (a n : Nat) (s : State) (go : Result) :
    withAccess kind a n s go =
      if n = 0 ∨ a + n - 1 ≤ 0xFFF then go else raise (.memoryOutOfRange kind (max a 0x1000)) s := by
  simp only [withAccess, accessInRange_iff, firstOutOfRange]

/-! ### The call stack -/

theorem State.push?_eq_some {s t : State} {w : Word} :
    s.push? w = some t ↔
      ∃ h : s.sp.val < 16, t = { s with stack := s.stack.set s.sp.val w, sp := ⟨s.sp.val + 1, by omega⟩ } := by
  unfold State.push?
  split <;> simp_all [eq_comm]

theorem State.push?_eq_none {s : State} {w : Word} : s.push? w = none ↔ s.sp.val = 16 := by
  unfold State.push?
  have := s.sp.isLt
  split <;> simp <;> omega

theorem State.pop?_eq_some {s t : State} {w : Word} :
    s.pop? = some (w, t) ↔
      ∃ h : 0 < s.sp.val, w = s.stack[s.sp.val - 1]'(by omega) ∧ t = { s with sp := ⟨s.sp.val - 1, by omega⟩ } := by
  unfold State.pop?
  split <;> simp_all [eq_comm]

theorem State.pop?_eq_none {s : State} : s.pop? = none ↔ s.sp.val = 0 := by
  unfold State.pop?
  split <;> simp <;> omega

/-! ### Fetch and tick -/

/-- A fetch reads the big-endian word at PC where PC + 1 is in memory (40_cycle.md R102, R103). -/
theorem fetch_eq (s : State) :
    fetch s = if s.pc.toNat ≤ 0xFFE
      then .ok (wordOfBytes (s.mem.read s.pc.toNat) (s.mem.read (s.pc.toNat + 1)))
      else .error (.memoryOutOfRange .fetch (max s.pc.toNat 0x1000)) := by
  have h : accessInRange s.pc.toNat 2 = true ↔ s.pc.toNat ≤ 0xFFE := by rw [accessInRange_iff]; omega
  simp only [fetch, h, firstOutOfRange]

/-- The tick counts the delay timer down by one, and leaves 0 at 0 (40_cycle.md R108). -/
theorem State.toNat_tick_dt (s : State) : s.tick.dt.toNat = s.dt.toNat - 1 := by
  have := s.dt.isLt
  rw [State.tick, State.tickSound_dt, State.tickDelay]
  split
  · simp only [BitVec.toNat_ofNat]; omega
  · omega

/-- The tick counts the sound timer down by one, and leaves 0 at 0 (40_cycle.md R109). -/
theorem State.toNat_tick_st (s : State) : s.tick.st.toNat = s.st.toNat - 1 := by
  have := s.st.isLt
  rw [State.tick, State.tickSound, State.tickDelay_st]
  split
  · simp only [BitVec.toNat_ofNat]; omega
  · rw [State.tickDelay_st]; omega

@[simp] theorem withEvents_next (ev : List Event) (s : State) : withEvents ev (.next s) = .next (s, ev) := rfl
@[simp] theorem withEvents_fault (ev : List Event) (f : Fault) : withEvents ev (.fault f) = .fault f := rfl
@[simp] theorem withEvents_refused (ev : List Event) (r : Refusal) : withEvents ev (.refused r) = .refused r := rfl

theorem withEvents_eq_next {ev ev' : List Event} {o : Result} {t : State} :
    withEvents ev o = .next (t, ev') ↔ o = .next t ∧ ev' = ev := by
  cases o <;> simp [eq_comm]

theorem withEvents_eq_fault {ev : List Event} {o : Result} {f : Fault} : withEvents ev o = .fault f ↔ o = .fault f := by
  cases o <;> simp

@[simp] theorem finishStep_next (s : State) (ev : List Event) :
    finishStep (.next (s, ev)) = .next (s.tick, ev ++ s.tickEvents) := rfl
@[simp] theorem finishStep_fault (f : Fault) : finishStep (.fault f) = .fault f := rfl
@[simp] theorem finishStep_refused (r : Refusal) : finishStep (.refused r) = .refused r := rfl

theorem finishStep_eq_next {o : StepResult} {t : State} {ev : List Event} :
    finishStep o = .next (t, ev) ↔ ∃ s ev', o = .next (s, ev') ∧ t = s.tick ∧ ev = ev' ++ s.tickEvents := by
  rcases o with ⟨s, ev'⟩ | f | r
  · simp [eq_comm]
  · simp
  · simp

theorem finishStep_eq_fault {o : StepResult} {f : Fault} : finishStep o = .fault f ↔ o = .fault f := by
  cases o <;> simp [finishStep]

theorem dropEvents_eq_next {o : StepResult} {t : State} : dropEvents o = .next t ↔ ∃ ev, o = .next (t, ev) := by
  rcases o with ⟨s, ev'⟩ | f | r <;> simp [dropEvents]

theorem dropEvents_eq_fault {o : StepResult} {f : Fault} : dropEvents o = .fault f ↔ o = .fault f := by
  rcases o with ⟨s, ev'⟩ | g | r <;> simp [dropEvents]

/-- What executing a decoded word that completes is: an instruction that completes, with no event, or an unknown word, reported
and skipped (40_cycle.md R106, R107). -/
theorem execDecoded_eq_next {d : Decoded} {s t : State} {ev : List Event} :
    execDecoded d s = .next (t, ev) ↔
      (∃ i, d = .instr i ∧ exec i s = .next t ∧ ev = []) ∨ (∃ w, d = .unknown w ∧ t = s.seq ∧ ev = [.diag w s.pc]) := by
  cases d with
  | instr i => simp [execDecoded, withEvents_eq_next]
  | unknown w => simp [execDecoded, execUnknown, eq_comm]

/-- An execution that faults is an instruction's: an unknown word never does (40_cycle.md R107). -/
theorem execDecoded_eq_fault {d : Decoded} {s : State} {f : Fault} :
    execDecoded d s = .fault f ↔ ∃ i, d = .instr i ∧ exec i s = .fault f := by
  cases d <;> simp [execDecoded, execUnknown, withEvents_eq_fault]

/-- Everything a completing step is: a fetch, an execution, a tick, and their output events in order (40_cycle.md R100). -/
theorem cycle_eq_next {s t : State} {ev : List Event} :
    cycle s = .next (t, ev) ↔
      s.fault = none ∧ ∃ w s₁ ev₁, fetch s = .ok w ∧ execDecoded (decode w) s = .next (s₁, ev₁) ∧ t = s₁.tick ∧
        ev = ev₁ ++ s₁.tickEvents := by
  unfold cycle
  split
  · simp_all
  · split <;> simp_all [finishStep_eq_next, withEvents_eq_next]

/-- Everything a faulting step is: no step at all, a fetch out of range, or a fault of the execution (40_cycle.md R100, R113). -/
theorem cycle_eq_fault {s : State} {f : Fault} :
    cycle s = .fault f ↔
      (∃ r, s.fault = some r ∧ f = .noStep r) ∨
      (s.fault = none ∧ ∃ r, fetch s = .error r ∧ raise r s = .fault f) ∨
      (s.fault = none ∧ ∃ w, fetch s = .ok w ∧ execDecoded (decode w) s = .fault f) := by
  unfold cycle
  split
  · simp_all [eq_comm]
  · split <;> simp_all [finishStep_eq_fault, withEvents_eq_fault]

theorem step_eq_next {s t : State} :
    step s = .next t ↔
      s.fault = none ∧ ∃ w s₁ ev, fetch s = .ok w ∧ execDecoded (decode w) s = .next (s₁, ev) ∧ t = s₁.tick := by
  simp only [step, dropEvents_eq_next, cycle_eq_next]
  constructor
  · rintro ⟨_, hf, w, s₁, ev, hw, he, ht, -⟩; exact ⟨hf, w, s₁, ev, hw, he, ht⟩
  · rintro ⟨hf, w, s₁, ev, hw, he, ht⟩; exact ⟨_, hf, w, s₁, ev, hw, he, ht, rfl⟩

theorem step_eq_fault {s : State} {f : Fault} : step s = .fault f ↔ cycle s = .fault f := dropEvents_eq_fault

/-- The output of a step that completes (40_cycle.md R111). -/
theorem stepEvents_of_cycle {s t : State} {ev : List Event} (h : cycle s = .next (t, ev)) : stepEvents s = ev := by
  rw [stepEvents, h]; rfl

/-! ### The step of the state record -/

/-- The tick of a record does not depend on the count of draws beside it. -/
theorem State.toStateRecord_tick_congr {s t : State} (h : s.toStateRecord = t.toStateRecord) :
    s.tick.toStateRecord = t.tick.toStateRecord := by
  obtain ⟨s, d⟩ := s; obtain ⟨t, e⟩ := t; cases h
  simp only [State.tick, State.tickSound, State.tickDelay]
  (repeat' split) <;> simp_all

/-- Nor do the tick's output events. -/
theorem State.tickEvents_congr {s t : State} (h : s.toStateRecord = t.toStateRecord) : s.tickEvents = t.tickEvents := by
  obtain ⟨s, d⟩ := s; obtain ⟨t, e⟩ := t; cases h; rfl

@[simp] theorem outcomeOf_next (t : State) (ev : List Event) :
    outcomeOf (.next (t, ev)) = some (.completed t.toStateRecord ev) := rfl
@[simp] theorem outcomeOf_faulted (r : FaultReason) (t : State) :
    outcomeOf (.fault (.faulted r t)) = some (.faulted r t.toStateRecord) := rfl
@[simp] theorem outcomeOf_noStep (r : FaultReason) : outcomeOf (.fault (.noStep r)) = none := rfl

@[simp] theorem execInput_rnd (r : Byte) (x : Reg) (kk : Byte) (s : State) :
    execInput r (.instr (.rnd x kk)) s = .next ((s.setV x (r &&& kk)).seq, []) := rfl

/-- A word other than a Cxkk does not read the input byte (40_cycle.md R106). -/
theorem execInput_of_ne_rnd {d : Decoded} (h : ∀ x kk, d ≠ .instr (.rnd x kk)) (r : Byte) (s : State) :
    execInput r d s = execDecoded d s := by
  unfold execInput
  split
  · exact absurd rfl (h _ _)
  · rfl

/-- Everything a step of the record is: none where it is faulted, the fault of the fetch, or an execution and a tick
(40_cycle.md R100, R113). -/
theorem StateRecord.step_eq (s : StateRecord) (r : Byte) :
    s.step r =
      if s.fault = none then
        if s.pc.toNat ≤ 0xFFE then
          outcomeOf (finishStep (execInput r (decode (wordOfBytes (s.mem.read s.pc.toNat) (s.mem.read (s.pc.toNat + 1)))) s.asState))
        else some (.faulted (.memoryOutOfRange .fetch (max s.pc.toNat 0x1000))
          { s with fault := some (.memoryOutOfRange .fetch (max s.pc.toNat 0x1000)) })
      else none := by
  unfold StateRecord.step
  split
  · simp_all
  · rename_i h
    rw [fetch_eq, if_pos h]
    by_cases hp : s.pc.toNat ≤ 0xFFE
    · rw [if_pos hp, toStateRecord_asState, if_pos hp]
    · rw [if_neg hp, toStateRecord_asState, if_neg hp]

/-! ### Keys -/

theorem State.keyAt?_eq (s : State) (k : Byte) :
    s.keyAt? k = if h : k.toNat < 16 then some s.key[k.toNat] else none := by
  unfold State.keyAt?
  split <;> simp_all

/-! ### Pixels -/

theorem getPixel_flipPixel (fb : Framebuffer) (c c' : Fin 64) (r r' : Fin 32) :
    getPixel (flipPixel fb c r) c' r' = if c' = c ∧ r' = r then !getPixel fb c' r' else getPixel fb c' r' := by
  simp only [getPixel, flipPixel, Vector.getElem_set, Fin.ext_iff]
  by_cases hc : c.val = c'.val
  · by_cases hr : r.val = r'.val
    · simp [hc, hr]
    · simp [hc, hr, Ne.symm hr]
  · simp [hc, Ne.symm hc]

@[simp] theorem getPixel_clear (c : Fin 64) (r : Fin 32) : getPixel clearFramebuffer c r = false := by
  simp [getPixel, clearFramebuffer]

end Sys2Proof.Machine
end

