-- ==== Sys2Proof/Laws/Operands.lean ====
section
/-!
SUPPORT. What the operand forms give: the register list of a store, the lowest key down, and the pixels a sprite covers; and what
drawing a list of distinct pixels does.
-/
namespace Sys2Proof.Machine

/-! ### Registers and keys -/

@[simp] theorem State.length_regsUpTo (s : State) (x : Reg) : (s.regsUpTo x).length = x.val + 1 := by
  simp [State.regsUpTo]

theorem State.getElem?_regsUpTo (s : State) (x k : Reg) :
    (s.regsUpTo x)[k.val]? = if k ≤ x then some (s.getV k) else none := by
  have hk := k.isLt
  simp only [State.regsUpTo, List.getElem?_take, State.getV, Fin.le_def, Nat.lt_succ_iff]
  split <;> simp

theorem lowestKeyDown_eq_none {keys : Keypad} : lowestKeyDown keys = none ↔ ∀ k : Fin 16, keys[k.val] = false := by
  simp only [lowestKeyDown, List.findIdx?_eq_none_iff, Vector.mem_toList_iff]
  constructor
  · intro h k
    simpa using h keys[k.val] (Vector.getElem_mem k.isLt)
  · intro h b hb
    obtain ⟨i, hi, rfl⟩ := Vector.getElem_of_mem hb
    simpa using h ⟨i, hi⟩

theorem lowestKeyDown_eq_some {keys : Keypad} {n : Nat} :
    lowestKeyDown keys = some n ↔
      ∃ k : Fin 16, k.val = n ∧ keys[k.val] = true ∧ ∀ j : Fin 16, j < k → keys[j.val] = false := by
  rw [lowestKeyDown, List.findIdx?_eq_some_iff_getElem]
  constructor
  · rintro ⟨h1, h2, h3⟩
    have h1' : n < 16 := by simpa using h1
    refine ⟨⟨n, h1'⟩, rfl, by simpa using h2, ?_⟩
    intro j hj
    simpa using h3 j.val hj
  · rintro ⟨k, rfl, h2, h3⟩
    refine ⟨by simp, by simpa using h2, ?_⟩
    intro j hj
    simpa using h3 ⟨j, by omega⟩ hj

/-! ### Sprites -/

/-- A sprite covers a pixel exactly where a set bit of a row lands on it, both axes wrapped (44_display.md R191, R193). -/
theorem mem_spritePixels (cx cy : Nat) (bs : List Byte) (c : Fin 64) (r : Fin 32) :
    (c, r) ∈ spritePixels cx cy bs ↔
      ∃ row b, bs[row]? = some b ∧ ∃ col < 8, b.getLsbD (7 - col) = true ∧
        c.val = (cx + col) % 64 ∧ r.val = (cy + row) % 32 := by
  induction bs generalizing cy with
  | nil => simp [spritePixels]
  | cons b bs ih =>
    simp only [spritePixels, List.mem_append, ih, rowPixels, List.mem_map, List.mem_filter, List.mem_range, spriteBit,
      Prod.mk.injEq, wrapCol, wrapRow]
    constructor
    · rintro (⟨col, ⟨h1, h2⟩, h3, h4⟩ | ⟨row, b', h, col, h1, h2, h3, h4⟩)
      · exact ⟨0, b, rfl, col, h1, h2, by rw [← h3], by rw [← h4]; rfl⟩
      · exact ⟨row + 1, b', by simpa using h, col, h1, h2, h3, by rw [h4]; congr 1; omega⟩
    · rintro ⟨row, b', h, col, h1, h2, h3, h4⟩
      cases row with
      | zero =>
        simp only [List.getElem?_cons_zero, Option.some.injEq] at h
        subst h
        exact .inl ⟨col, ⟨h1, h2⟩, Fin.ext h3.symm, Fin.ext h4.symm⟩
      | succ row => exact .inr ⟨row, b', by simpa using h, col, h1, h2, h3, by rw [h4]; congr 1; omega⟩

/-- A sprite of at most 32 rows covers no pixel twice (44_display.md R191, corner cases). -/
theorem nodup_spritePixels (cx cy : Nat) (bs : List Byte) (h : bs.length ≤ 32) : (spritePixels cx cy bs).Nodup := by
  induction bs generalizing cy with
  | nil => simp [spritePixels]
  | cons b bs ih =>
    simp only [List.length_cons] at h
    rw [spritePixels, List.nodup_append]
    refine ⟨?_, ih _ (by omega), ?_⟩
    · rw [rowPixels]
      refine List.Nodup.map_on ?_ (List.Nodup.filter _ List.nodup_range)
      intro a ha b hb hab
      simp only [List.mem_filter, List.mem_range, wrapCol, Prod.mk.injEq, Fin.mk.injEq] at ha hb hab
      omega
    · rintro ⟨c, r⟩ h1 ⟨c', r'⟩ h2 heq
      cases heq
      obtain ⟨row, b', hb, col, -, -, -, h4⟩ := (mem_spritePixels _ _ _ _ _).1 h2
      have hlt : row < bs.length := by
        by_contra hh
        rw [List.getElem?_eq_none (by omega)] at hb
        cases hb
      simp only [rowPixels, List.mem_map, Prod.mk.injEq, wrapRow] at h1
      obtain ⟨_, _, _, h5⟩ := h1
      rw [← h5] at h4
      simp only at h4
      omega

/-- Drawing distinct pixels flips exactly those. -/
theorem getPixel_drawPixels {ps : List (Fin 64 × Fin 32)} (hn : ps.Nodup) (fb : Framebuffer) (coll : Bool) (c : Fin 64)
    (r : Fin 32) :
    getPixel (drawPixels ps (fb, coll)).1 c r = if (c, r) ∈ ps then !getPixel fb c r else getPixel fb c r := by
  induction ps generalizing fb coll with
  | nil => simp [drawPixels]
  | cons p ps ih =>
    obtain ⟨a, b⟩ := p
    simp only [List.nodup_cons] at hn
    rw [drawPixels, ih hn.2, getPixel_flipPixel]
    by_cases h2 : c = a ∧ r = b
    · obtain ⟨rfl, rfl⟩ := h2
      simp [hn.1]
    · have h3 : (c, r) ≠ (a, b) := fun h => h2 (Prod.mk.injEq .. ▸ h)
      simp [h2, h3]

/-- Drawing distinct pixels reports a collision exactly where one of them was set (44_display.md R194). -/
theorem collision_drawPixels {ps : List (Fin 64 × Fin 32)} (hn : ps.Nodup) (fb : Framebuffer) (coll : Bool) :
    (drawPixels ps (fb, coll)).2 = true ↔ coll = true ∨ ∃ c r, (c, r) ∈ ps ∧ getPixel fb c r = true := by
  induction ps generalizing fb coll with
  | nil => simp [drawPixels]
  | cons p ps ih =>
    obtain ⟨a, b⟩ := p
    simp only [List.nodup_cons] at hn
    rw [drawPixels, ih hn.2]
    simp only [getPixel_flipPixel, Bool.or_eq_true, List.mem_cons, Prod.mk.injEq]
    constructor
    · rintro ((h | h) | ⟨c, r, h, h'⟩)
      · exact .inl h
      · exact .inr ⟨a, b, .inl ⟨rfl, rfl⟩, h⟩
      · rw [if_neg] at h'
        · exact .inr ⟨c, r, .inr h, h'⟩
        · rintro ⟨rfl, rfl⟩
          exact hn.1 h
    · rintro (h | ⟨c, r, ⟨rfl, rfl⟩ | h, h'⟩)
      · exact .inl (.inl h)
      · exact .inl (.inr h')
      · refine .inr ⟨c, r, h, ?_⟩
        rw [if_neg]
        · exact h'
        · rintro ⟨rfl, rfl⟩
          exact hn.1 h

/-- The pixels a draw covers, in terms of memory and the two coordinates (44_display.md R191-R193). -/
theorem State.mem_spriteCover (s : State) (x y : Reg) (n : BitVec 4) (c : Fin 64) (r : Fin 32) :
    (c, r) ∈ s.spriteCover x y n ↔
      ∃ row < n.toNat, ∃ col < 8, (s.mem.read (s.i.toNat + row)).getLsbD (7 - col) = true ∧
        c.val = ((s.getV x).toNat + col) % 64 ∧ r.val = ((s.getV y).toNat + row) % 32 := by
  simp only [State.spriteCover, mem_spritePixels, State.spriteRows, Memory.getElem?_readBytes, State.iAddr]
  constructor
  · rintro ⟨row, b, h, rest⟩
    split at h
    · injection h with h
      subst h
      exact ⟨row, by assumption, rest⟩
    · cases h
  · rintro ⟨row, h, rest⟩
    exact ⟨row, _, if_pos h, rest⟩

/-- A draw covers no pixel twice: it has at most 15 rows (44_display.md R191, corner cases). -/
theorem State.nodup_spriteCover (s : State) (x y : Reg) (n : BitVec 4) : (s.spriteCover x y n).Nodup := by
  have := n.isLt
  exact nodup_spritePixels _ _ _ (by rw [State.spriteRows, Memory.length_readBytes]; omega)

end Sys2Proof.Machine
end

