-- ==== Sys2Proof/Laws/PerInstr.lean ====
section
/-!
SUPPORT. Per instruction: the word the encoder gives lies in the instruction's own row of the opcode map (spec/30_encoding.md
R75), one lemma per constructor.
-/
namespace Sys2Proof.Laws.InRow

/-- The instruction's word selects its own row of the opcode map. -/
def Statement (i : Instr) : Prop := (rowOf i).selects (encode i) = true

theorem selects_of_toNat {p m w : Word} (h : (w &&& m).toNat = p.toNat) : OpcodeRow.selects ⟨p, m⟩ w = true := by
  simpa [OpcodeRow.selects] using BitVec.eq_of_toNat_eq h

theorem wordNnn_selects {op : Nat} (hop : op < 16) (nnn : BitVec 12) {p : Word} (hp : p.toNat = op * 4096) :
    OpcodeRow.selects ⟨p, 0xF000#16⟩ (wordNnn op nnn) = true := by
  have := nnn.isLt
  apply selects_of_toNat
  rw [toNat_and_F000, toNat_wordNnn hop, hp]; omega

theorem wordXkk_selects {op : Nat} (hop : op < 16) (x : Reg) (kk : Byte) {p : Word} (hp : p.toNat = op * 4096) :
    OpcodeRow.selects ⟨p, 0xF000#16⟩ (wordXkk op x kk) = true := by
  have := kk.isLt
  apply selects_of_toNat
  rw [toNat_and_F000, toNat_wordXkk hop, hp]; omega

theorem wordX_selects {op : Nat} (hop : op < 16) (x : Reg) (kk : Byte) {p : Word} (hp : p.toNat = op * 4096 + kk.toNat) :
    OpcodeRow.selects ⟨p, 0xF0FF#16⟩ (wordXkk op x kk) = true := by
  have := kk.isLt
  apply selects_of_toNat
  rw [toNat_and_F0FF, toNat_wordXkk hop, hp]; omega

theorem wordXyn_selects {op : Nat} (hop : op < 16) (x y : Reg) (n : BitVec 4) {p : Word} (hp : p.toNat = op * 4096) :
    OpcodeRow.selects ⟨p, 0xF000#16⟩ (wordXyn op x y n) = true := by
  have := n.isLt
  apply selects_of_toNat
  rw [toNat_and_F000, toNat_wordXyn hop, hp]; omega

theorem wordXy_selects {op : Nat} (hop : op < 16) (x y : Reg) (n : BitVec 4) {p : Word}
    (hp : p.toNat = op * 4096 + n.toNat) : OpcodeRow.selects ⟨p, 0xF00F#16⟩ (wordXyn op x y n) = true := by
  have := n.isLt
  apply selects_of_toNat
  rw [toNat_and_F00F, toNat_wordXyn hop, hp]; omega

theorem cls : Statement .cls := by unfold Statement; decide

theorem ret : Statement .ret := by unfold Statement; decide

theorem jp (nnn : BitVec 12) : Statement (.jp nnn) := wordNnn_selects (by decide) nnn (by decide)

theorem call (nnn : BitVec 12) : Statement (.call nnn) := wordNnn_selects (by decide) nnn (by decide)

theorem seImm (x : Reg) (kk : Byte) : Statement (.seImm x kk) := wordXkk_selects (by decide) x kk (by decide)

theorem sneImm (x : Reg) (kk : Byte) : Statement (.sneImm x kk) := wordXkk_selects (by decide) x kk (by decide)

theorem seReg (x : Reg) (y : Reg) : Statement (.seReg x y) := wordXy_selects (by decide) x y 0x0 (by decide)

theorem ldImm (x : Reg) (kk : Byte) : Statement (.ldImm x kk) := wordXkk_selects (by decide) x kk (by decide)

theorem addImm (x : Reg) (kk : Byte) : Statement (.addImm x kk) := wordXkk_selects (by decide) x kk (by decide)

theorem ldReg (x : Reg) (y : Reg) : Statement (.ldReg x y) := wordXy_selects (by decide) x y 0x0 (by decide)

theorem orReg (x : Reg) (y : Reg) : Statement (.orReg x y) := wordXy_selects (by decide) x y 0x1 (by decide)

theorem andReg (x : Reg) (y : Reg) : Statement (.andReg x y) := wordXy_selects (by decide) x y 0x2 (by decide)

theorem xorReg (x : Reg) (y : Reg) : Statement (.xorReg x y) := wordXy_selects (by decide) x y 0x3 (by decide)

theorem addReg (x : Reg) (y : Reg) : Statement (.addReg x y) := wordXy_selects (by decide) x y 0x4 (by decide)

theorem sub (x : Reg) (y : Reg) : Statement (.sub x y) := wordXy_selects (by decide) x y 0x5 (by decide)

theorem shr (x : Reg) (y : Reg) : Statement (.shr x y) := wordXy_selects (by decide) x y 0x6 (by decide)

theorem subn (x : Reg) (y : Reg) : Statement (.subn x y) := wordXy_selects (by decide) x y 0x7 (by decide)

theorem shl (x : Reg) (y : Reg) : Statement (.shl x y) := wordXy_selects (by decide) x y 0xE (by decide)

theorem sneReg (x : Reg) (y : Reg) : Statement (.sneReg x y) := wordXy_selects (by decide) x y 0x0 (by decide)

theorem ldI (nnn : BitVec 12) : Statement (.ldI nnn) := wordNnn_selects (by decide) nnn (by decide)

theorem jpV0 (nnn : BitVec 12) : Statement (.jpV0 nnn) := wordNnn_selects (by decide) nnn (by decide)

theorem rnd (x : Reg) (kk : Byte) : Statement (.rnd x kk) := wordXkk_selects (by decide) x kk (by decide)

theorem drw (x : Reg) (y : Reg) (n : BitVec 4) : Statement (.drw x y n) := wordXyn_selects (by decide) x y n (by decide)

theorem skp (x : Reg) : Statement (.skp x) := wordX_selects (by decide) x 0x9E (by decide)

theorem sknp (x : Reg) : Statement (.sknp x) := wordX_selects (by decide) x 0xA1 (by decide)

theorem ldVxDT (x : Reg) : Statement (.ldVxDT x) := wordX_selects (by decide) x 0x07 (by decide)

theorem ldVxK (x : Reg) : Statement (.ldVxK x) := wordX_selects (by decide) x 0x0A (by decide)

theorem ldDTVx (x : Reg) : Statement (.ldDTVx x) := wordX_selects (by decide) x 0x15 (by decide)

theorem ldSTVx (x : Reg) : Statement (.ldSTVx x) := wordX_selects (by decide) x 0x18 (by decide)

theorem addI (x : Reg) : Statement (.addI x) := wordX_selects (by decide) x 0x1E (by decide)

theorem ldF (x : Reg) : Statement (.ldF x) := wordX_selects (by decide) x 0x29 (by decide)

theorem ldB (x : Reg) : Statement (.ldB x) := wordX_selects (by decide) x 0x33 (by decide)

theorem ldMemVx (x : Reg) : Statement (.ldMemVx x) := wordX_selects (by decide) x 0x55 (by decide)

theorem ldVxMem (x : Reg) : Statement (.ldVxMem x) := wordX_selects (by decide) x 0x65 (by decide)

end Sys2Proof.Laws.InRow
end

