-- ==== Sys2Proof/Laws/WellFormed.lean ====
section
/-!
SUPPORT. Every instruction is well-formed: the operand types carry the ranges of spec/30_encoding.md R78.
-/
namespace Sys2Proof

theorem regOperandOk_reg (x : Reg) : regOperandOk x.val = true := by
  have := x.isLt; simp only [regOperandOk, decide_eq_true_eq]; omega

theorem byteOperandOk_byte (kk : Byte) : byteOperandOk kk.toNat = true := by
  have := kk.isLt; simp only [byteOperandOk, decide_eq_true_eq]; omega

theorem addrOperandOk_addr (nnn : BitVec 12) : addrOperandOk nnn.toNat = true := by
  have := nnn.isLt; simp only [addrOperandOk, decide_eq_true_eq]; omega

theorem nibbleOperandOk_nibble (n : BitVec 4) : nibbleOperandOk n.toNat = true := by
  have := n.isLt; simp only [nibbleOperandOk, decide_eq_true_eq]; omega

theorem Instr.wellFormed_all (i : Instr) : i.wellFormed = true := by
  cases i <;>
    simp [Instr.wellFormed, regOperandOk_reg, byteOperandOk_byte, addrOperandOk_addr, nibbleOperandOk_nibble]

end Sys2Proof
end

