-- ==== Sys2Proof/Tests/Slice0.lean ====
section
/-!
SUPPORT. Tests: expected results from the spec's examples and vectors (spec/95_test_vectors.md, named in each comment), one step on
a small state; then, for each statement of Certificates/Slice0/Obligations.lean that has hypotheses, a witness that meets them.
-/
namespace Sys2Proof.Tests
open Sys2Proof.Machine

/-- What a next state shows. -/
def sees {α : Type} (o : Result) (f : State → α) : Option α :=
  match o with
  | .next s => some (f s)
  | .fault _ => none
  | .refused _ => none

/-- The reason and a view of the faulted state. -/
def faults {α : Type} (o : Result) (f : State → α) : Option (FaultReason × α) :=
  match o with
  | .fault (.faulted r s) => some (r, f s)
  | .fault (.noStep _) => none
  | .next _ => none
  | .refused _ => none

/-- The reset state with a word at 0x200. -/
def start (w : Nat) : State := State.reset.withFetchWord 16 w

/-- The reset state with a word at 0x200 and bytes at an address. -/
def startMem (w a : Nat) (bs : List Byte) : State := { start w with mem := (start w).mem.writeBytes a bs }

/-- A keypad with just the listed keys down. -/
def keysDown (ks : List (Fin 16)) : Keypad := ks.foldl (fun keys k => keys.set k.val true) (Vector.replicate 16 false)

/-! ### Well-formedness: each check refuses an ill-formed operand (30_encoding.md R78) -/

theorem test_wf_refuses_register_16 : regOperandOk 16 = false := by decide
theorem test_wf_refuses_byte_256 : byteOperandOk 256 = false := by decide
theorem test_wf_refuses_address_4096 : addrOperandOk 4096 = false := by decide
theorem test_wf_refuses_nibble_16 : nibbleOperandOk 16 = false := by decide
theorem test_wf_accepts_the_ranges : (Instr.drw 15 15 15).wellFormed = true ∧ (Instr.ldImm 15 255).wellFormed = true ∧
    (Instr.jp 4095).wellFormed = true := by decide

/-! ### Decoding: each row's word, written bit by bit from the patterns of 30_encoding.md R75 -/

theorem test_decode_fixed_and_nnn :
    decode 0b0000000011100000 = .instr .cls ∧ decode 0b0000000011101110 = .instr .ret ∧
    decode 0b0001001000000100 = .instr (.jp 0x204) ∧ decode 0b0010001000010000 = .instr (.call 0x210) ∧
    decode 0b1010001100000001 = .instr (.ldI 0x301) ∧ decode 0b1011111111110000 = .instr (.jpV0 0xFF0) := by decide

theorem test_decode_xkk :
    decode 0b0011001100000101 = .instr (.seImm 3 0x05) ∧ decode 0b0100001100000101 = .instr (.sneImm 3 0x05) ∧
    decode 0b0110101001000010 = .instr (.ldImm 0xA 0x42) ∧ decode 0b0111111100001010 = .instr (.addImm 0xF 0x0A) ∧
    decode 0b1100001100001111 = .instr (.rnd 3 0x0F) := by decide

theorem test_decode_xy :
    decode 0b0101000100100000 = .instr (.seReg 1 2) ∧ decode 0b1001000100100000 = .instr (.sneReg 1 2) ∧
    decode 0b1000000100100000 = .instr (.ldReg 1 2) ∧ decode 0b1000000100100001 = .instr (.orReg 1 2) ∧
    decode 0b1000000100100010 = .instr (.andReg 1 2) ∧ decode 0b1000000100100011 = .instr (.xorReg 1 2) ∧
    decode 0b1000000100100100 = .instr (.addReg 1 2) ∧ decode 0b1000000100100101 = .instr (.sub 1 2) ∧
    decode 0b1000000100100110 = .instr (.shr 1 2) ∧ decode 0b1000000100100111 = .instr (.subn 1 2) ∧
    decode 0b1000000100101110 = .instr (.shl 1 2) := by decide

theorem test_decode_draw_and_keys :
    decode 0b1101101111000101 = .instr (.drw 0xB 0xC 5) ∧ decode 0b1110010110011110 = .instr (.skp 5) ∧
    decode 0b1110010110100001 = .instr (.sknp 5) := by decide

theorem test_decode_x :
    decode 0b1111001100000111 = .instr (.ldVxDT 3) ∧ decode 0b1111001000001010 = .instr (.ldVxK 2) ∧
    decode 0b1111000000010101 = .instr (.ldDTVx 0) ∧ decode 0b1111000100011000 = .instr (.ldSTVx 1) ∧
    decode 0b1111001000011110 = .instr (.addI 2) ∧ decode 0b1111101000101001 = .instr (.ldF 0xA) ∧
    decode 0b1111000000110011 = .instr (.ldB 0) ∧ decode 0b1111001001010101 = .instr (.ldMemVx 2) ∧
    decode 0b1111010001100101 = .instr (.ldVxMem 4) := by decide

/-- DEC-1 to DEC-9: the neighbours of the rows are unknown. -/
theorem test_decode_unknown :
    decode 0x0123 = .unknown 0x0123 ∧ decode 0x01E0 = .unknown 0x01E0 ∧ decode 0x00E1 = .unknown 0x00E1 ∧
    decode 0x5121 = .unknown 0x5121 ∧ decode 0x9121 = .unknown 0x9121 ∧ decode 0x800F = .unknown 0x800F ∧
    decode 0xE19F = .unknown 0xE19F ∧ decode 0xF1FF = .unknown 0xF1FF := by decide

/-- Bytes: big-endian, two at a time, fewer are refused by name. -/
theorem test_decode_bytes :
    decodeBytes [0x6A, 0x5C, 0x01] = .ok (.ldImm 0xA 0x5C, [0x01]) ∧ decodeBytes [0x6A] = .error .truncated ∧
    decodeBytes [0x01, 0x23] = .error (.unknownOpcode 0x0123) ∧ decodeTableWord 16 0x8014 = some (.addReg 0 1) := by
  decide

/-! ### The cycle -/

/-- CYC-1: the last word of memory runs. CYC-5: an odd PC. -/
theorem test_fetch_edges :
    sees (step ({ State.reset with pc := 0xFFE }.withFetchWord 16 0x6011)) (fun s => (s.getV 0, s.pc)) =
      some (0x11, 0x1000) ∧
    sees (step ({ State.reset with pc := 0x201 }.withFetchWord 16 0x6107)) (fun s => (s.getV 1, s.pc)) =
      some (0x07, 0x203) := by decide

/-- CYC-2, CYC-4: a fetch past memory. -/
theorem test_fetch_past_memory :
    faults (step { State.reset with pc := 0xFFF }) (·.pc) = some (.memoryOutOfRange .fetch 0x1000, 0xFFF) ∧
    faults (step { State.reset with pc := 0x1010 }) (·.pc) = some (.memoryOutOfRange .fetch 0x1010, 0x1010) := by decide

/-- DEC-10: an unknown word is reported, then the beep; both timers tick. -/
theorem test_unknown_word_ticks :
    sees (step { start 0x0123 with dt := 2, st := 1 }) (fun s => (s.pc, s.dt, s.st)) = some (0x202, 1, 0) ∧
    stepEvents { start 0x0123 with dt := 2, st := 1 } = [.diag 0x0123 0x200, .beep] := by decide

/-- IT-17, IT-18, IT-19: the tick. -/
theorem test_tick :
    sees (step { start 0x6000 with dt := 1, st := 1 }) (fun s => (s.dt, s.st)) = some (0, 0) ∧
    stepEvents { start 0x6000 with dt := 1, st := 1 } = [.beep] ∧
    sees (step { start 0x6000 with st := 2 }) (fun s => (s.dt, s.st)) = some (0, 1) ∧
    stepEvents { start 0x6000 with st := 2 } = [] := by decide

/-- FLT-1: a faulting step runs no tick and emits nothing. FLT-2: a faulted state has no step. -/
theorem test_fault_is_atomic :
    faults (step { start 0x2300 with dt := 5, st := 1, sp := 16 }) (fun s => (s.dt, s.st)) = some (.stackOverflow, 5, 1) ∧
    stepEvents { start 0x2300 with dt := 5, st := 1, sp := 16 } = [] ∧
    step { State.reset with fault := some .stackOverflow } = .fault (.noStep .stackOverflow) := by
  exact ⟨by decide, by decide, rfl⟩

/-! ### Control transfer -/

/-- CF-1, CF-3. -/
theorem test_ret :
    sees (step { start 0x00EE with sp := 1, stack := (Vector.replicate 16 0).set 0 0x204 })
      (fun s => (s.sp, s.pc, s.stack[0])) = some (0, 0x206, 0x204) ∧
    sees (step { start 0x00EE with sp := 16, stack := (Vector.replicate 16 0).set 15 0x21E }) (fun s => (s.sp, s.pc)) =
      some (15, 0x220) := by decide

/-- CF-2. -/
theorem test_ret_underflow : faults (step (start 0x00EE)) (·.pc) = some (.stackUnderflow, 0x200) := by decide

/-- CF-4. -/
theorem test_jp : sees (step (start 0x1FFE)) (·.pc) = some 0xFFE := by decide

/-- CF-8: the last slot, and A itself is pushed. -/
theorem test_call : sees (step { start 0x2300 with sp := 15 }) (fun s => (s.stack[15], s.sp, s.pc)) =
    some (0x200, 16, 0x300) := by decide

/-- CF-9. -/
theorem test_call_overflow : faults (step { start 0x2300 with sp := 16 }) (·.sp) = some (.stackOverflow, 16) := by decide

/-- CF-10, CF-11. -/
theorem test_se_imm : sees (step ((start 0x3142).setV 1 0x42)) (·.pc) = some 0x204 ∧
    sees (step ((start 0x3142).setV 1 0x41)) (·.pc) = some 0x202 := by decide

/-- CF-12, CF-13. -/
theorem test_sne_imm : sees (step ((start 0x4142).setV 1 0x42)) (·.pc) = some 0x202 ∧
    sees (step ((start 0x4142).setV 1 0x41)) (·.pc) = some 0x204 := by decide

/-- CF-14, CF-15. -/
theorem test_se_reg : sees (step (((start 0x5120).setV 1 7).setV 2 7)) (·.pc) = some 0x204 ∧
    sees (step (((start 0x5120).setV 1 7).setV 2 8)) (·.pc) = some 0x202 := by decide

/-- CF-16, CF-17. -/
theorem test_sne_reg : sees (step (((start 0x9120).setV 1 7).setV 2 8)) (·.pc) = some 0x204 ∧
    sees (step (((start 0x9120).setV 1 7).setV 2 7)) (·.pc) = some 0x202 := by decide

/-- CF-20: no 12-bit wrap. -/
theorem test_jp_v0 : sees (step ((start 0xBFF0).setV 0 0x20)) (·.pc) = some 0x1010 := by decide

/-! ### Registers and arithmetic: V[x], VF -/

/-- L1-1. -/
theorem test_ld_imm : sees (step (start 0x6A5C)) (fun s => (s.getV 0xA, s.pc)) = some (0x5C, 0x202) := by decide

/-- ALU-2, ALU-3. -/
theorem test_add_imm :
    sees (step (((start 0x7001).setV 0 0xFF).setV VF 0x55)) (fun s => (s.getV 0, s.getV VF)) = some (0x00, 0x55) ∧
    sees (step ((start 0x7FFF).setV VF 0x01)) (State.getV · VF) = some 0x00 := by decide

/-- ALU-5. -/
theorem test_ld_reg : sees (step ((start 0x8120).setV 2 0x11)) (State.getV · 1) = some 0x11 := by decide

/-- ALU-6: VF is not reset. -/
theorem test_or : sees (step ((((start 0x8121).setV 1 0xF0).setV 2 0x0F).setV VF 0x77)) (fun s => (s.getV 1, s.getV VF)) =
    some (0xFF, 0x77) := by decide

/-- ALU-7. -/
theorem test_and : sees (step (((start 0x8122).setV 1 0xF0).setV 2 0x3C)) (State.getV · 1) = some 0x30 := by decide

/-- 42_alu.md R146, its example. -/
theorem test_xor : sees (step (((start 0x8123).setV 1 0xF0).setV 2 0x3C)) (State.getV · 1) = some 0xCC := by decide

/-- L1-3 (a), ALU-11: 255 is no carry. -/
theorem test_add_reg :
    sees (step (((start 0x8014).setV 0 0xC8).setV 1 0x64)) (fun s => (s.getV 0, s.getV VF)) = some (0x2C, 1) ∧
    sees (step ((((start 0x8014).setV 0 0x7F).setV 1 0x80).setV VF 1)) (fun s => (s.getV 0, s.getV VF)) =
      some (0xFF, 0) := by decide

/-- ALU-12, ALU-13: the flag lands last. -/
theorem test_add_to_vf :
    sees (step (((start 0x8F14).setV VF 0xFF).setV 1 0x01)) (State.getV · VF) = some 1 ∧
    sees (step (((start 0x8F14).setV VF 0x01).setV 1 0x01)) (State.getV · VF) = some 0 := by decide

/-- ALU-16, ALU-15. -/
theorem test_sub :
    sees (step ((((start 0x8015).setV 0 0x10).setV 1 0x20).setV VF 1)) (fun s => (s.getV 0, s.getV VF)) = some (0xF0, 0) ∧
    sees (step (((start 0x8015).setV 0 0x20).setV 1 0x20)) (fun s => (s.getV 0, s.getV VF)) = some (0, 1) := by decide

/-- ALU-24, ALU-25: Vy is ignored; the flag lands last. -/
theorem test_shr :
    sees (step (((start 0x8126).setV 1 0x04).setV 2 0xFF)) (fun s => (s.getV 1, s.getV VF)) = some (0x02, 0) ∧
    sees (step ((start 0x8F06).setV VF 0x03)) (State.getV · VF) = some 1 := by decide

/-- ALU-21, ALU-19. -/
theorem test_subn :
    sees (step (((start 0x8127).setV 1 0x20).setV 2 0x10)) (fun s => (s.getV 1, s.getV VF)) = some (0xF0, 0) ∧
    sees (step (((start 0x8017).setV 0 0x20).setV 1 0x20)) (fun s => (s.getV 0, s.getV VF)) = some (0, 1) := by decide

/-- ALU-27, ALU-30. -/
theorem test_shl :
    sees (step ((start 0x810E).setV 1 0x81)) (fun s => (s.getV 1, s.getV VF)) = some (0x02, 1) ∧
    sees (step ((start 0x8F0E).setV VF 0x7F)) (State.getV · VF) = some 0 := by decide

/-- ALU-32: kk = 0 gives 0 for any draw, and PC and the draw count move. -/
theorem test_rnd : sees (step ((start 0xC100).setV 1 0x99)) (fun s => (s.pc, s.draws)) = some (0x202, 1) := by decide

/-- The record and the events of a completed step of the record. -/
def completes {α : Type} (o : Option StepOutcome) (f : StateRecord → α) : Option (α × List Event) :=
  match o with
  | some (.completed s events) => some (f s, events)
  | some (.faulted _ _) => none
  | none => none

/-- 42_alu.md R155, its example: the input byte 0xB7, and the tick of the same step; an input byte no other word reads. -/
theorem test_rnd_with_input :
    completes ({ start 0xC30F with st := 1 }.toStateRecord.step 0xB7) (fun s => (s.v[3], s.pc, s.st)) =
      some ((0x07, 0x202, 0), [.beep]) ∧
    completes ((start 0x6A5C).toStateRecord.step 0xB7) (fun s => (s.v[10], s.pc)) = some ((0x5C, 0x202), []) := by decide

/-! ### Index register and memory -/

/-- IM-2. -/
theorem test_ld_i : sees (step (start 0xAFFF)) (·.i) = some 0xFFF := by decide

/-- IM-3, IM-4. -/
theorem test_add_i :
    sees (step (({ start 0xF11E with i := 0xFFF }.setV 1 1).setV VF 0x55)) (fun s => (s.i, s.getV VF)) =
      some (0x1000, 0x55) ∧
    sees (step ({ start 0xF11E with i := 0xFFFF }.setV 1 2)) (·.i) = some 1 := by decide

/-- IM-5, IM-7. -/
theorem test_ld_f : sees (step ((start 0xF129).setV 1 0x0A)) (·.i) = some 0x32 ∧
    sees (step ((start 0xF129).setV 1 0xFF)) (·.i) = some 0x4FB := by decide

/-- IM-8, IM-11. -/
theorem test_ld_b :
    sees (step ({ start 0xF133 with i := 0x300 }.setV 1 254)) (fun s => s.mem.readBytes 0x300 3) = some [2, 5, 4] ∧
    sees (step ({ start 0xF133 with i := 0xFFD }.setV 1 7)) (fun s => s.mem.readBytes 0xFFD 3) = some [0, 0, 7] := by decide

/-- IM-12. -/
theorem test_ld_b_past_memory : faults (step ({ start 0xF133 with i := 0xFFE }.setV 1 7)) (fun s => s.mem.read 0xFFF) =
    some (.memoryOutOfRange .write 0x1000, 0) := by decide

/-- IM-13; IM-22: a store into code. -/
theorem test_store :
    sees (step (((({ start 0xF255 with i := 0x300 }.setV 0 1).setV 1 2).setV 2 3).setV 3 4))
      (fun s => (s.mem.readBytes 0x300 4, s.i)) = some ([1, 2, 3, 0], 0x300) ∧
    sees (step ({ start 0xF055 with i := 0x206 }.setV 0 0x12)) (fun s => s.mem.readBytes 0x206 2) = some [0x12, 0] := by
  decide

/-- IM-16. -/
theorem test_store_past_memory : faults (step { start 0xFF55 with i := 0xFF1 }) (·.i) =
    some (.memoryOutOfRange .write 0x1000, 0xFF1) := by decide

/-- IM-17; IM-18: the default glyph of 0. -/
theorem test_load :
    sees (step ({ startMem 0xF265 0x300 [9, 8, 7, 6] with i := 0x300 }.setV 3 0x55))
      (fun s => (s.getV 0, s.getV 1, s.getV 2, s.getV 3)) = some (9, 8, 7, 0x55) ∧
    sees (step (start 0xF465)) (fun s => s.regsUpTo 4) = some [0xF0, 0x90, 0x90, 0x90, 0xF0] := by decide

/-- IM-20. -/
theorem test_load_past_memory : faults (step { start 0xF165 with i := 0xFFF }) (·.i) =
    some (.memoryOutOfRange .read 0x1000, 0xFFF) := by decide

/-! ### Display -/

/-- DSP-12, DSP-13. -/
theorem test_cls :
    sees (step { start 0x00E0 with fb := flipPixel (flipPixel clearFramebuffer 0 0) 63 31 })
      (fun s => (getPixel s.fb 0 0, getPixel s.fb 63 31, s.redraw)) = some (false, false, true) := by decide

/-- DSP-2, DSP-3: each axis wraps; bit 7 is leftmost. -/
theorem test_drw_wraps :
    sees (step (({ startMem 0xD121 0x300 [0x81] with i := 0x300 }.setV 1 60).setV 2 5))
      (fun s => (getPixel s.fb 60 5, getPixel s.fb 3 5, getPixel s.fb 61 5, s.getV VF)) = some (true, true, false, 0) ∧
    sees (step (({ startMem 0xD122 0x300 [0x80, 0x80] with i := 0x300 }.setV 1 3).setV 2 31))
      (fun s => (getPixel s.fb 3 31, getPixel s.fb 3 0)) = some (true, true) := by decide

/-- DSP-5: a collision; DSP-8: the column is the old VF; DSP-10: past memory. -/
theorem test_drw_collides_and_faults :
    sees (step (({ startMem 0xD121 0x300 [0xC0] with i := 0x300, fb := flipPixel clearFramebuffer 10 3 }.setV 1 10).setV 2 3))
      (fun s => (getPixel s.fb 10 3, getPixel s.fb 11 3, s.getV VF, s.redraw)) = some (false, true, 1, true) ∧
    sees (step ({ startMem 0xDF01 0x300 [0x80] with i := 0x300 }.setV VF 5)) (fun s => (getPixel s.fb 5 0, s.getV VF)) =
      some (true, 0) ∧
    faults (step { start 0xD12F with i := 0xFF2 }) (·.redraw) = some (.memoryOutOfRange .read 0x1000, false) := by decide

/-! ### Input and timers -/

/-- IT-1, IT-2. -/
theorem test_skp : sees (step ({ start 0xE19E with key := keysDown [5] }.setV 1 5)) (·.pc) = some 0x204 ∧
    sees (step ((start 0xE19E).setV 1 5)) (·.pc) = some 0x202 := by decide

/-- IT-3, IT-6. -/
theorem test_sknp : sees (step ({ start 0xE1A1 with key := keysDown [5] }.setV 1 5)) (·.pc) = some 0x202 ∧
    faults (step ((start 0xE1A1).setV 1 0xFF)) (·.pc) = some (.keyIndexOutOfRange 0xFF, 0x200) := by decide

/-- IT-7. -/
theorem test_ld_vx_dt : sees (step { start 0xF107 with dt := 0x30 }) (fun s => (s.getV 1, s.dt)) = some (0x30, 0x2F) := by
  decide

/-- IT-9: a waiting step ticks; IT-10: the lowest key. -/
theorem test_ld_vx_k :
    sees (step { start 0xF10A with dt := 3, st := 1 }) (fun s => (s.pc, s.dt, s.st)) = some (0x200, 2, 0) ∧
    sees (step { start 0xF10A with key := keysDown [0xC, 0x4] }) (fun s => (s.getV 1, s.pc)) = some (4, 0x202) := by decide

/-- IT-12. -/
theorem test_ld_dt : sees (step ((start 0xF115).setV 1 5)) (·.dt) = some 4 := by decide

/-- IT-14, IT-16. -/
theorem test_ld_st : sees (step ((start 0xF118).setV 1 1)) (·.st) = some 0 ∧ stepEvents ((start 0xF118).setV 1 1) = [.beep] ∧
    sees (step { start 0xF118 with st := 1 }) (·.st) = some 0 ∧ stepEvents { start 0xF118 with st := 1 } = [] := by decide

/-! ### Host interface -/

/-- RST-1, RST-2. -/
theorem test_load_program :
    State.reset.mem.readBytes 0x32 5 = [0xF0, 0x90, 0xF0, 0x90, 0x90] ∧ State.reset.mem.read 0x50 = 0 ∧
    (StateRecord.reset.load [0x12, 0x00]).map (fun s => s.mem.readBytes 0x200 3) = .ok [0x12, 0x00, 0x00] := by decide

/-- RST-5. -/
theorem test_load_too_large : (StateRecord.reset.load (List.replicate 3585 0)).map (·.pc) = .error 3585 := by
  have h : (List.replicate 3585 (0 : Byte)).length = 3585 := List.length_replicate
  rw [StateRecord.load, if_neg (by rw [h]; decide), h]
  rfl

/-- HST-1, and RST-3: an empty program runs 0x0000, an unknown word. -/
theorem test_host_transactions :
    (Launch.loaded (start 0xF30A).toStateRecord).transact (.setKeys (keysDown [9])) =
      some (.nothing, .loaded ((start 0xF30A).toStateRecord.setKeys (keysDown [9]))) ∧
    completes (((start 0xF30A).toStateRecord.setKeys (keysDown [9])).step 0) (fun s => (s.v[3], s.pc)) = some ((9, 0x202), []) ∧
    stepEvents State.reset = [.diag 0x0000 0x200] := by
  refine ⟨rfl, ?_, ?_⟩ <;> decide

/-! ### Witnesses: for each statement with hypotheses, a state and operands that meet them together -/

theorem next_of_sees {α : Type} {o : Result} {f : State → α} {a : α} (h : sees o f = some a) :
    ∃ t, o = .next t ∧ f t = a := by
  cases o <;> simp_all [sees]

theorem fault_of_faults {α : Type} {o : Result} {f : State → α} {r : FaultReason} {a : α} (h : faults o f = some (r, a)) :
    ∃ t, o = .fault (.faulted r t) ∧ f t = a := by
  unfold faults at h
  split at h <;> simp_all

theorem witness_DecodeOfEncodeIsIdentity : (Instr.drw 15 15 15).wellFormed = true := by decide

theorem witness_EncodeOfDecodeIsIdentity : decode 0xDFFF = .instr (.drw 15 15 15) := by decide

/-- A row and a word that selects it, and a word that selects none. -/
theorem witness_OpcodeMapSelectsTheInstruction :
    (rowOf .cls ∈ opcodeMap ∧ (0x00E0 : Word) &&& (rowOf .cls).mask = (rowOf .cls).pattern) ∧
    ∀ row ∈ opcodeMap, (0x5121 : Word) &&& row.mask ≠ row.pattern := by decide

theorem witness_StepRunsTheDecodedInstruction :
    (start 0x6A5C).fault = none ∧ (start 0x6A5C).pc.toNat ≤ 0xFFE ∧ (Instr.ldImm 0xA 0x5C).wellFormed = true ∧
    decode (wordOfBytes ((start 0x6A5C).mem.read (start 0x6A5C).pc.toNat)
      ((start 0x6A5C).mem.read ((start 0x6A5C).pc.toNat + 1))) = .instr (.ldImm 0xA 0x5C) := by decide

/-- At the highest PC that can be fetched. -/
theorem witness_FetchIsBigEndian : ({ State.reset with pc := 0xFFE } : State).pc.toNat ≤ 0xFFE := by decide

/-- At the lowest PC that cannot be fetched. -/
theorem witness_FetchPastMemoryFaults :
    ({ State.reset with pc := 0xFFF } : State).fault = none ∧ 0xFFF ≤ ({ State.reset with pc := 0xFFF } : State).pc.toNat := by
  decide

theorem witness_UnknownWordIsReportedAndSkipped :
    (start 0x0123).fault = none ∧ fetch (start 0x0123) = .ok 0x0123 ∧ decode 0x0123 = .unknown 0x0123 := by
  exact ⟨rfl, rfl, by decide⟩

/-- A record that no fault stops and that fetches a Cxkk, and one that fetches another word. -/
theorem witness_StepIsTheRecordsStepWithADrawnByte :
    ((start 0xC30F).fault = none ∧ fetch (start 0xC30F) = .ok 0xC30F ∧ decode 0xC30F = .instr (.rnd 3 0x0F)) ∧
    ((start 0x6A5C).fault = none ∧ fetch (start 0x6A5C) = .ok 0x6A5C ∧ ∀ x kk, decode 0x6A5C ≠ .instr (.rnd x kk)) := by
  refine ⟨⟨rfl, rfl, by decide⟩, rfl, rfl, ?_⟩
  have h : decode 0x6A5C = .instr (.ldImm 0xA 0x5C) := by decide
  intro x kk; rw [h]; simp

/-- A step that completes; the sound timer at 1, so that it beeps. -/
theorem witness_CompletedStepTicksTheTimers : ∃ t, step { start 0x6000 with dt := 1, st := 1 } = .next t ∧ t.st = 0 :=
  next_of_sees (f := (·.st)) (by decide)

/-- A waiting step leaves DT to the tick. -/
theorem witness_DelayTimerCountsDownUnlessWritten :
    (∃ t, step { start 0xF10A with dt := 3 } = .next t ∧ t.dt = 2) ∧ fetch { start 0xF10A with dt := 3 } = .ok 0xF10A ∧
    ∀ x, decode 0xF10A ≠ .instr (.ldDTVx x) :=
  ⟨next_of_sees (f := (·.dt)) (by decide), rfl, by decide⟩

/-- A completing step with both events, and one that does not complete. -/
theorem witness_StepEventsAreDiagThenBeep :
    (∃ t, step { start 0x0123 with st := 1 } = .next t ∧ t.st = 0) ∧
    stepEvents { start 0x0123 with st := 1 } = [.diag 0x0123 0x200, .beep] ∧
    ∃ f, step { State.reset with fault := some .stackOverflow } = .fault f :=
  ⟨next_of_sees (f := (·.st)) (by decide), by decide, _, rfl⟩

theorem witness_FaultingStepCommitsNothing :
    ∃ t, step (start 0x00EE) = .fault (.faulted .stackUnderflow t) ∧ t.pc = 0x200 :=
  fault_of_faults (f := (·.pc)) (by decide)

/-- One fault of each reason. -/
theorem witness_EachFaultHasItsCause :
    (∃ t, exec (.call 0) { State.reset with sp := 16 } = .fault (.faulted .stackOverflow t) ∧ t.sp = 16) ∧
    (∃ t, exec .ret State.reset = .fault (.faulted .stackUnderflow t) ∧ t.sp = 0) ∧
    (∃ t, exec (.ldB 0) { State.reset with i := 0xFFE } = .fault (.faulted (.memoryOutOfRange .write 0x1000) t) ∧ t.sp = 0) ∧
    (∃ t, exec (.ldMemVx 1) { State.reset with i := 0xFFF } = .fault (.faulted (.memoryOutOfRange .write 0x1000) t) ∧ t.sp = 0) ∧
    (∃ t, exec (.ldVxMem 0) { State.reset with i := 0x1001 } = .fault (.faulted (.memoryOutOfRange .read 0x1001) t) ∧ t.sp = 0) ∧
    (∃ t, exec (.drw 0 0 2) { State.reset with i := 0xFFF } = .fault (.faulted (.memoryOutOfRange .read 0x1000) t) ∧ t.sp = 0) ∧
    (∃ t, exec (.skp 1) (State.reset.setV 1 0x10) = .fault (.faulted (.keyIndexOutOfRange 0x10) t) ∧ t.sp = 0) :=
  ⟨fault_of_faults (f := (·.sp)) (by decide), fault_of_faults (f := (·.sp)) (by decide),
    fault_of_faults (f := (·.sp)) (by decide), fault_of_faults (f := (·.sp)) (by decide),
    fault_of_faults (f := (·.sp)) (by decide), fault_of_faults (f := (·.sp)) (by decide),
    fault_of_faults (f := (·.sp)) (by decide)⟩

/-- At the last value that each check passes. -/
theorem witness_ExecCompletesExactlyWhenItsCheckPasses :
    RunsNormally { State.reset with sp := 1 } .ret ∧ RunsNormally { State.reset with sp := 15 } (.call 0) ∧
    RunsNormally { State.reset with i := 0xFFD } (.ldB 0) ∧ RunsNormally { State.reset with i := 0xFF0 } (.ldMemVx 15) ∧
    RunsNormally { State.reset with i := 0xFF1 } (.drw 0 0 15) ∧ RunsNormally { State.reset with i := 0xFFFF } (.drw 0 0 0) ∧
    RunsNormally (State.reset.setV 1 0xF) (.skp 1) := by
  simp only [RunsNormally]; decide

/-- The hypothesis of InstructionsChangeOnlyWhatTheyWrite, OnlyTheNamedInstructionsWriteEachPart and NextPcFollowsTheTable. -/
theorem witness_InstructionsChangeOnlyWhatTheyWrite :
    ∃ t, exec (.ldMemVx 0) { State.reset with i := 0xFFF } = .next t ∧ t.pc = 0x202 :=
  next_of_sees (f := (·.pc)) (by decide)

/-- One change of each part that OnlyTheNamedInstructionsWriteEachPart speaks of. -/
theorem witness_OnlyTheNamedInstructionsWriteEachPart :
    (∃ t, exec (.ldI 1) State.reset = .next t ∧ decide (t.i ≠ State.reset.i) = true) ∧
    (∃ t, exec (.ldB 0) { State.reset with i := 0 } = .next t ∧ decide (t.mem ≠ State.reset.mem) = true) ∧
    (∃ t, exec (.call 0) State.reset = .next t ∧ decide (t.stack ≠ State.reset.stack ∧ t.sp ≠ State.reset.sp) = true) ∧
    (∃ t, exec .cls State.reset = .next t ∧ decide (t.redraw ≠ State.reset.redraw) = true) ∧
    (∃ t, exec (.drw 0 0 1) State.reset = .next t ∧ getPixel t.fb 0 0 = true) ∧
    (∃ t, exec (.ldDTVx 1) (State.reset.setV 1 5) = .next t ∧ decide (t.dt ≠ State.reset.dt) = true) ∧
    (∃ t, exec (.ldSTVx 1) (State.reset.setV 1 5) = .next t ∧ decide (t.st ≠ State.reset.st) = true) := by
  refine ⟨next_of_sees (f := fun t => decide (t.i ≠ State.reset.i)) (by decide),
    next_of_sees (f := fun t => decide (t.mem ≠ State.reset.mem)) (by decide),
    next_of_sees (f := fun t => decide (t.stack ≠ State.reset.stack ∧ t.sp ≠ State.reset.sp)) (by decide),
    next_of_sees (f := fun t => decide (t.redraw ≠ State.reset.redraw)) (by decide),
    next_of_sees (f := fun t => getPixel t.fb 0 0) (by decide),
    next_of_sees (f := fun t => decide (t.dt ≠ State.reset.dt)) (by decide),
    next_of_sees (f := fun t => decide (t.st ≠ State.reset.st)) (by decide)⟩

/-- A completing step from a state whose redraw flag is set. -/
theorem witness_StepKeepsKeysAndNeverClearsRedraw :
    ∃ t, step { start 0x6000 with redraw := true } = .next t ∧ t.redraw = true :=
  next_of_sees (f := (·.redraw)) (by decide)

/-- A flag instruction; a change of VF by another instruction. -/
theorem witness_OnlyFlagInstructionsAndNamedWritesTouchVF :
    (∃ t, exec (.sub 0 1) State.reset = .next t ∧ t.getV VF = 1) ∧
    (∃ t, exec (.ldImm VF 7) State.reset = .next t ∧ t.getV VF = 7) :=
  ⟨next_of_sees (f := (State.getV · VF)) (by decide), next_of_sees (f := (State.getV · VF)) (by decide)⟩

/-- A jump to the highest target there is. -/
theorem witness_NextPcFollowsTheTable :
    ∃ t, exec (.jpV0 0xFFF) (State.reset.setV 0 0xFF) = .next t ∧ t.pc = 0x10FE :=
  next_of_sees (f := (·.pc)) (by decide)

theorem witness_StepKeepsTheInvariant : (start 0x2300).Inv ∧ ∃ t, step (start 0x2300) = .next t ∧ t.sp = 1 :=
  ⟨⟨by decide, by decide, by decide⟩, next_of_sees (f := (·.sp)) (by decide)⟩

/-- A launch with a program that stands at its first step. -/
theorem witness_EveryReachedStateMeetsTheInvariant :
    ∃ l s, Launch.Reached l ∧ l.state? = some s ∧ s.mem.readBytes 0x200 2 = [0x12, 0x00] := by
  refine ⟨_, _, .move (.load [0x12, 0x00])
    (.move (.initializeWith ⟨defaultGlyphs.toArray, by decide⟩) .fresh rfl) rfl, rfl, by decide⟩

/-- An instance that meets the invariant, and moves of it: a load and a step. -/
theorem witness_TransactionsKeepTheInvariant :
    (∀ s, (Launch.initialized StateRecord.reset).state? = some s → s.Inv) ∧
    (∃ p, (Launch.initialized StateRecord.reset).transact (.load [0x12, 0x00]) = some p) ∧
    (∀ s, (Launch.loaded (start 0x2300).toStateRecord).state? = some s → s.Inv) ∧
    (∃ p, (Launch.loaded (start 0x2300).toStateRecord).transact (.step 0) = some p) := by
  refine ⟨?_, ⟨_, rfl⟩, ?_, ⟨_, rfl⟩⟩
  · rintro s ⟨⟩; exact ⟨by decide, by decide, by decide⟩
  · rintro s ⟨⟩; exact witness_StepKeepsTheInvariant.1

theorem witness_CanonicalMemoriesThatReadAlikeAreEqual :
    Memory.wf [(0x200, 1)] = true ∧ Memory.wf (Memory.write [] 0x200 1) = true ∧
    ∀ a, Memory.read [(0x200, 1)] a = (Memory.write [] 0x200 1).read a :=
  ⟨by decide, by decide, fun _ => rfl⟩

/-- The last glyph byte, the first byte above, and the default glyph set. -/
theorem witness_InitializeLeavesTheResetValues :
    79 < 80 ∧ 80 ≤ 80 ∧ 0xFFF < 0x1000 ∧ ∃ glyphs : Vector Byte 80, glyphs.toList = defaultGlyphs :=
  ⟨by decide, by decide, by decide, ⟨defaultGlyphs.toArray, by decide⟩, rfl⟩

/-- The longest program that fits. -/
theorem witness_LoadCopiesTheProgram : (List.replicate 3584 (0 : Byte)).length ≤ 3584 := by rw [List.length_replicate]

/-- The shortest program that does not. -/
theorem witness_OversizedLoadFails : 3584 < (List.replicate 3585 (0 : Byte)).length := by
  rw [List.length_replicate]; decide

theorem witness_LaunchProtocolHasNoOtherMoves :
    Launch.loaded StateRecord.reset ≠ .fresh ∧
    (∃ p, Launch.fresh.transact (.initializeWith ⟨defaultGlyphs.toArray, by decide⟩) = some p) ∧
    (List.replicate 3584 (0 : Byte)).length ≤ 3584 ∧
    (∃ p, (Launch.initialized StateRecord.reset).transact (.load []) = some p) ∧
    StateRecord.reset.fault = none ∧
    completes (StateRecord.reset.step 0) (·.pc) = some (0x202, [.diag 0x0000 0x200]) ∧
    (∃ t, ({ StateRecord.reset with pc := 0xFFF }).step 0 = some (.faulted (.memoryOutOfRange .fetch 0x1000) t)) ∧
    (∃ t, step State.reset = .next t ∧ t.pc = 0x202) ∧
    (∃ p, (Launch.loaded StateRecord.reset).transact (.step 0) = some p) :=
  ⟨by simp, ⟨_, rfl⟩, witness_LoadCopiesTheProgram, ⟨_, rfl⟩, rfl, by decide, ⟨_, rfl⟩, next_of_sees (f := (·.pc)) (by decide),
    ⟨_, rfl⟩⟩

/-- Each place of the launch protocol that has a state. -/
theorem witness_HostTransactionsTouchOnlyTheirPart :
    (Launch.initialized StateRecord.reset).state? = some StateRecord.reset ∧
    (Launch.loaded StateRecord.reset).state? = some StateRecord.reset ∧
    (Launch.loadFailed StateRecord.reset).state? = some StateRecord.reset := ⟨rfl, rfl, rfl⟩

/-- A full stack, so that its last slot is popped; an empty one. -/
theorem witness_ReturnResumesAfterTheCall :
    ({ State.reset with sp := 16 } : State).sp.val = 15 + 1 ∧
    ({ State.reset with sp := 16 } : State).stack[15]? = some 0 ∧ (0 : Word).toNat + 2 < 0x10000 ∧
    State.reset.sp.val = 0 := by decide

/-- The last free slot; a full stack. -/
theorem witness_CallPushesItsOwnAddress :
    ({ State.reset with sp := 15 } : State).sp.val < 16 ∧ ({ State.reset with sp := 16 } : State).sp.val = 16 := by decide

theorem witness_CallThenReturnRestoresPcAndSp :
    ({ State.reset with sp := 15, pc := 0xFFE } : State).sp.val < 16 ∧
    ({ State.reset with sp := 15, pc := 0xFFE } : State).pc.toNat ≤ 0xFFE ∧
    ∃ t, exec (.call 0x300) { State.reset with sp := 15, pc := 0xFFE } = .next t ∧ t.sp = 16 :=
  ⟨by decide, by decide, next_of_sees (f := (·.sp)) (by decide)⟩

/-- A jump to itself; the one target that cannot be fetched. -/
theorem witness_JumpGoesToItsTarget : (0x200 : BitVec 12).toNat = State.reset.pc.toNat ∧ (0xFFF : BitVec 12) = 0xFFF := by
  decide

/-- Equal and different, and a PC whose skip 16 bits hold. -/
theorem witness_ImmediateSkipsCompareTheRegister :
    State.reset.getV 3 = 0 ∧ State.reset.getV 3 ≠ 1 ∧ State.reset.pc.toNat + 4 < 0x10000 := by decide

theorem witness_RegisterSkipsCompareTwoRegisters :
    State.reset.getV 1 = State.reset.getV 2 ∧ (State.reset.setV 1 1).getV 1 ≠ (State.reset.setV 1 1).getV 2 ∧
    (0x5121 : Word).toNat / 0x1000 = 0x5 ∧ (0x5121 : Word).toNat % 16 ≠ 0 ∧
    (0x912F : Word).toNat / 0x1000 = 0x9 ∧ (0x912F : Word).toNat % 16 ≠ 0 := by decide

/-- A destination that is not VF, for the results of ADD, SUB, SUBN, SHR and SHL (with x = VF the flag clauses speak). -/
theorem witness_AddSetsSumAndCarry : (0 : Reg) ≠ VF ∧ (14 : Reg) ≠ VF := by decide

theorem witness_RandomByteIsMasked : (0 : Byte) = 0 := rfl

/-- The highest I that holds three digits. -/
theorem witness_DecimalDigitsAreStored : ({ State.reset with i := 0xFFD } : State).i.toNat + 2 ≤ 0xFFF := by decide

/-- The highest I that holds all sixteen registers, and one. -/
theorem witness_RegistersAreStoredAndLoaded :
    ({ State.reset with i := 0xFF0 } : State).i.toNat + (15 : Reg).val ≤ 0xFFF ∧
    ({ State.reset with i := 0xFFF } : State).i.toNat + (0 : Reg).val ≤ 0xFFF ∧ (15 : Reg) ≤ 15 := by decide

/-- The lowest I of each clause that is out of range, and a draw of no rows. -/
theorem witness_AccessPastMemoryFaults :
    ({ State.reset with i := 0xFFE } : State).i.toNat + 2 > 0xFFF ∧
    ({ State.reset with i := 0xFF1 } : State).i.toNat + (15 : Reg).val > 0xFFF ∧
    (15 : BitVec 4).toNat > 0 ∧ ({ State.reset with i := 0xFF2 } : State).i.toNat + (15 : BitVec 4).toNat - 1 > 0xFFF ∧
    (0 : BitVec 4) = 0 := by decide

theorem witness_StoreThenLoadRestoresRegisters :
    ∃ t, exec (.ldMemVx 15) { State.reset with i := 0xFF0 } = .next t ∧ t.i = 0xFF0 :=
  next_of_sees (f := (·.i)) (by decide)

/-- The last two registers of a store, and a state that fetches from where they stand. -/
theorem witness_StoredBytesAreFetched :
    ∃ t, exec (.ldMemVx 15) { State.reset with i := 0x300 } = .next t ∧ (15 : Reg).val = (14 : Reg).val + 1 ∧
      (15 : Reg) ≤ 15 ∧ ∃ u : State, u.mem = t.mem ∧ u.pc.toNat = ({ State.reset with i := 0x300 } : State).i.toNat + 14 := by
  obtain ⟨t, ht, _⟩ : ∃ t, exec (.ldMemVx 15) { State.reset with i := 0x300 } = .next t ∧ t.i = 0x300 :=
    next_of_sees (f := (·.i)) (by decide)
  exact ⟨t, ht, by decide, by decide, { t with pc := 0x30E }, rfl, rfl⟩

/-- The last row in range; a covered pixel that is set, one that is not, and one that is not covered. -/
theorem witness_DrawXorsTheSprite :
    (({ State.reset with i := 0xFF1 } : State).i.toNat + (15 : BitVec 4).toNat - 1 ≤ 0xFFF) ∧
    SpriteCovers State.reset 0 0 1 0 0 ∧ getPixel State.reset.fb 0 0 = false ∧
    SpriteCovers { State.reset with fb := flipPixel clearFramebuffer 0 0 } 0 0 1 0 0 ∧
    getPixel (flipPixel clearFramebuffer 0 0) 0 0 = true ∧ ¬ SpriteCovers State.reset 0 0 0 0 0 := by
  refine ⟨by decide, ⟨0, by decide, 0, by decide, by decide⟩, by decide, ⟨0, by decide, 0, by decide, by decide⟩, by decide, ?_⟩
  rintro ⟨row, h, -⟩
  exact absurd h (Nat.not_lt_zero row)

/-- A draw with a covered pixel that was 0, and one with none. -/
theorem witness_DrawingTwiceRestoresTheFramebuffer :
    (∃ t, exec (.drw 0 0 1) State.reset = .next t ∧ getPixel t.fb 0 0 = true) ∧
    SpriteCovers State.reset 0 0 1 0 0 ∧ getPixel State.reset.fb 0 0 = false ∧
    (∃ t, exec (.drw 0 0 0) State.reset = .next t ∧ getPixel t.fb 0 0 = false) := by
  refine ⟨next_of_sees (f := fun t => getPixel t.fb 0 0) (by decide), ⟨0, by decide, 0, by decide, by decide⟩, by decide,
    next_of_sees (f := fun t => getPixel t.fb 0 0) (by decide)⟩

/-- A first draw, the second from its pixels with V put back, and a covered pixel. -/
theorem witness_SecondDrawReportsCollisionForAnySetBit :
    ∃ t, exec (.drw 0 0 1) State.reset = .next t ∧ SpriteCovers State.reset 0 0 1 0 0 ∧
      ∃ u, exec (.drw 0 0 1) { t with v := State.reset.v } = .next u := by
  obtain ⟨t, ht, _⟩ := witness_DrawingTwiceRestoresTheFramebuffer.1
  have hi : t.i = 0 := by
    obtain ⟨t', ht', hi⟩ : ∃ t, exec (.drw 0 0 1) State.reset = .next t ∧ t.i = 0 := next_of_sees (f := (·.i)) (by decide)
    rw [ht] at ht'; injection ht' with ht'; rw [ht']; exact hi
  refine ⟨t, ht, witness_DrawingTwiceRestoresTheFramebuffer.2.1, _, (withAccess_eq _ _ _ _ _).trans (if_pos (Or.inr ?_))⟩
  simp [State.iAddr, hi]

/-- The highest key, down and up; the lowest value that is no key. -/
theorem witness_KeySkipsTestTheKey :
    ({ State.reset with key := keysDown [15] }.setV 1 15).key[(({ State.reset with key := keysDown [15] }.setV 1 15).getV 1).toNat]? =
      some true ∧
    (State.reset.setV 1 15).key[((State.reset.setV 1 15).getV 1).toNat]? = some false ∧
    ((State.reset.setV 1 0x10).getV 1).toNat > 0xF := by decide

/-- No key down; a waiting step; the highest key the only one down; the lowest of two. -/
theorem witness_KeyWaitStaysOrTakesTheLowestKey :
    (∀ k : Fin 16, State.reset.key[k.val] = false) ∧
    ((start 0xF10A).fault = none ∧ fetch (start 0xF10A) = .ok 0xF10A ∧ decode 0xF10A = .instr (.ldVxK 1) ∧
      ∀ k : Fin 16, (start 0xF10A).key[k.val] = false) ∧
    ((keysDown [15])[(15 : Fin 16).val] = true ∧ ∀ j : Fin 16, j < 15 → (keysDown [15])[j.val] = false) ∧
    ((keysDown [4, 12])[(4 : Fin 16).val] = true ∧ ∀ j : Fin 16, j < 4 → (keysDown [4, 12])[j.val] = false) :=
  ⟨by decide, ⟨rfl, rfl, by decide, by decide⟩, by decide, by decide⟩

end Sys2Proof.Tests
end

/-! ### The opcode map of 30_encoding.md R75 against the decoder -/

section
namespace Sys2Proof

/-- A row of mask 0xF000 compares the primary opcode. -/
theorem and_F000_eq_iff {w p : Word} :
    w &&& 0xF000#16 = p ↔ opField w = p.toNat / 4096 ∧ p.toNat % 4096 = 0 := by
  rw [BitVec.toNat_eq, toNat_and_F000, opField]; omega

/-- A row of mask 0xF00F compares the primary opcode and the low nibble. -/
theorem and_F00F_eq_iff {w p : Word} :
    w &&& 0xF00F#16 = p ↔ opField w = p.toNat / 4096 ∧ w.toNat % 16 = p.toNat % 4096 := by
  rw [BitVec.toNat_eq, toNat_and_F00F, opField]; omega

/-- A row of mask 0xF0FF compares the primary opcode and the low byte. -/
theorem and_F0FF_eq_iff {w p : Word} :
    w &&& 0xF0FF#16 = p ↔ opField w = p.toNat / 4096 ∧ w.toNat % 256 = p.toNat % 4096 := by
  rw [BitVec.toNat_eq, toNat_and_F0FF, opField]; omega

/-- A row of mask 0xFFFF compares the whole word. -/
theorem and_FFFF_eq_iff {w p : Word} : w &&& 0xFFFF#16 = p ↔ w.toNat = p.toNat := by
  rw [and_FFFF, BitVec.toNat_eq]

/-- The answer `d` fits the word `w`: an instruction whose row `w` selects, or the unknown word `w` itself. -/
def Decoded.Fits (w : Word) : Decoded → Prop
  | .instr i => w &&& (rowOf i).mask = (rowOf i).pattern
  | .unknown v => v = w

theorem decodeGroup0_fits (w : Word) : (decodeGroup0 w).Fits w := by
  unfold decodeGroup0
  split_ifs with hcls hret
  · exact and_FFFF_eq_iff.2 hcls
  · exact and_FFFF_eq_iff.2 hret
  · rfl

theorem decodeGroup8_fits {w : Word} (hop : opField w = 0x8) : (decodeGroup8 w).Fits w := by
  unfold decodeGroup8
  split
  case h_10 => rfl
  all_goals next hlow => simp [Decoded.Fits, rowOf, and_F00F_eq_iff, hop, hlow]

theorem decodeGroupE_fits {w : Word} (hop : opField w = 0xE) : (decodeGroupE w).Fits w := by
  unfold decodeGroupE
  split_ifs with hskp hsknp
  · simp [Decoded.Fits, rowOf, and_F0FF_eq_iff, hop, hskp]
  · simp [Decoded.Fits, rowOf, and_F0FF_eq_iff, hop, hsknp]
  · rfl

theorem decodeGroupF_fits {w : Word} (hop : opField w = 0xF) : (decodeGroupF w).Fits w := by
  unfold decodeGroupF
  split_ifs
  case neg => rfl
  all_goals next hlow => simp [Decoded.Fits, rowOf, and_F0FF_eq_iff, hop, hlow]

/-- The decoder never leaves the map: case `h_k` of the split is primary opcode `k - 1`, the last is no opcode. -/
theorem decode_fits (w : Word) : (decode w).Fits w := by
  unfold decode
  split <;> rename_i hop
  case h_1 => exact decodeGroup0_fits w
  case h_9 => exact decodeGroup8_fits hop
  case h_15 => exact decodeGroupE_fits hop
  case h_16 => exact decodeGroupF_fits hop
  case h_6 | h_10 =>
    split
    · next hlow => simp [Decoded.Fits, rowOf, and_F00F_eq_iff, hop, hlow]
    · rfl
  case h_17 => rfl
  all_goals simp [Decoded.Fits, rowOf, and_F000_eq_iff, hop]

theorem selects_of_decode {w : Word} {i : Instr} (h : decode w = .instr i) :
    w &&& (rowOf i).mask = (rowOf i).pattern := by
  have hfits := decode_fits w
  rwa [h] at hfits

theorem eq_of_decode_unknown {w v : Word} (h : decode w = .unknown v) : v = w := by
  have hfits := decode_fits w
  rwa [h] at hfits

/-- A selected row is the row of what the word decodes to: one case per format of R73. -/
theorem decode_of_selects {w : Word} {i : Instr} (h : w &&& (rowOf i).mask = (rowOf i).pattern) :
    ∃ j, decode w = .instr j ∧ rowOf j = rowOf i := by
  cases i with
  | cls | ret =>
    have hw := and_FFFF_eq_iff.1 h
    have hop : opField w = 0 := by rw [opField, hw]; rfl
    simp [decode, hop, decodeGroup0, hw, rowOf]
  | jp | call | seImm | sneImm | ldImm | addImm | ldI | jpV0 | rnd | drw =>
    obtain ⟨hop, -⟩ := and_F000_eq_iff.1 h
    simp [decode, hop, rowOf]
  | seReg | sneReg | ldReg | orReg | andReg | xorReg | addReg | sub | shr | subn | shl =>
    obtain ⟨hop, hlow⟩ := and_F00F_eq_iff.1 h
    simp [decode, hop, decodeGroup8, hlow, rowOf]
  | skp | sknp =>
    obtain ⟨hop, hlow⟩ := and_F0FF_eq_iff.1 h
    simp [decode, hop, decodeGroupE, hlow, rowOf]
  | ldVxDT | ldVxK | ldDTVx | ldSTVx | addI | ldF | ldB | ldMemVx | ldVxMem =>
    obtain ⟨hop, hlow⟩ := and_F0FF_eq_iff.1 h
    simp [decode, hop, decodeGroupF, hlow, rowOf]

theorem rowOf_mem_opcodeMap (i : Instr) : rowOf i ∈ opcodeMap := by
  cases i <;> simp [opcodeMap, rowOf]

theorem exists_rowOf_of_mem_opcodeMap {row : OpcodeRow} (h : row ∈ opcodeMap) : ∃ i, rowOf i = row := by
  simp only [opcodeMap, List.mem_append, List.mem_map] at h
  obtain ⟨i, -, hi⟩ | ⟨i, -, hi⟩ := h <;> exact ⟨i, hi⟩

theorem selects_iff_decode {w : Word} {row : OpcodeRow} (hrow : row ∈ opcodeMap) :
    w &&& row.mask = row.pattern ↔ ∃ i, decode w = .instr i ∧ rowOf i = row := by
  obtain ⟨i, rfl⟩ := exists_rowOf_of_mem_opcodeMap hrow
  constructor
  · exact decode_of_selects
  · rintro ⟨j, hj, hij⟩
    exact hij ▸ selects_of_decode hj

/-- The rows are mutually exclusive because each is the row of the one instruction the word decodes to. -/
theorem row_unique {w : Word} {r₁ r₂ : OpcodeRow} (hr₁ : r₁ ∈ opcodeMap) (hr₂ : r₂ ∈ opcodeMap)
    (h₁ : w &&& r₁.mask = r₁.pattern) (h₂ : w &&& r₂.mask = r₂.pattern) : r₁ = r₂ := by
  obtain ⟨i, hi, rfl⟩ := (selects_iff_decode hr₁).1 h₁
  obtain ⟨j, hj, rfl⟩ := (selects_iff_decode hr₂).1 h₂
  rw [hi] at hj
  injection hj with hij
  rw [hij]

theorem decode_unknown_of_selects_none {w : Word} (h : ∀ row ∈ opcodeMap, w &&& row.mask ≠ row.pattern) :
    decode w = .unknown w := by
  cases hd : decode w with
  | instr i => exact absurd (selects_of_decode hd) (h _ (rowOf_mem_opcodeMap i))
  | unknown v => rw [eq_of_decode_unknown hd]

/-- Settles O4: every answer of the decoder fits its word (`decode_fits`), and every selected row is the row of the
answer (`decode_of_selects`); exclusion and the unknown words follow. -/
theorem opcodeMapSelectsTheInstruction : Obligations.OpcodeMapSelectsTheInstruction :=
  ⟨rfl, rowOf_mem_opcodeMap, fun _ _ => selects_iff_decode, fun _ _ _ => row_unique,
    fun _ => decode_unknown_of_selects_none⟩

end Sys2Proof
end

/-! ### The word of a fetch in bit operations (40_cycle.md R103) -/

section
namespace Sys2Proof

/-- R103's bit operations give the word of two bytes: the shifted high byte and the low byte share no bit, so OR adds them. -/
theorem wordOfBytes_eq_shiftLeft_or (hi lo : Byte) :
    wordOfBytes hi lo = hi.setWidth 16 <<< 8 ||| lo.setWidth 16 := by
  apply BitVec.eq_of_toNat_eq
  have hhi : hi.toNat < 256 := hi.isLt
  have hlo : lo.toNat < 256 := lo.isLt
  have hshift : hi.toNat <<< 8 = hi.toNat * 256 := Nat.shiftLeft_eq ..
  calc (wordOfBytes hi lo).toNat
      = hi.toNat * 256 + lo.toNat := by rw [wordOfBytes, BitVec.toNat_ofNat]; omega
    _ = hi.toNat <<< 8 ||| lo.toNat := by rw [← hshift, Nat.shiftLeft_add_eq_or_of_lt hlo]
    _ = (hi.setWidth 16 <<< 8 ||| lo.setWidth 16).toNat := by
      simp (disch := omega) only [BitVec.toNat_or, BitVec.toNat_shiftLeft, BitVec.toNat_setWidth, Nat.mod_eq_of_lt]

/-- Settles O7: where PC + 1 is in memory the fetch is the word of the two bytes (`fetch_eq`), which is R103's
`(mem[PC] << 8) OR mem[PC+1]` (`wordOfBytes_eq_shiftLeft_or`). -/
theorem fetchIsBigEndian : Obligations.FetchIsBigEndian := by
  intro s hpc
  refine ⟨_, ?_, wordOfBytes_eq_shiftLeft_or _ _⟩
  rw [Machine.fetch_eq, if_pos hpc]

end Sys2Proof
end

/-! ### The one word of each instruction (30_encoding.md R71-R75) -/

section
namespace Sys2Proof
open Sys2Proof.Machine

/-- A word of format NNN is made of its opcode and its literal. -/
theorem wordNnn_fields {w : Word} {op : Nat} (hop : opField w = op) : wordNnn op (nnnField w) = w := by
  apply BitVec.eq_of_toNat_eq
  have := w.isLt
  subst hop
  simp only [wordNnn, opField, nnnField, BitVec.toNat_ofNat]; omega

/-- A word of format XKK, or X, is made of its opcode, its register and its low byte. -/
theorem wordXkk_fields {w : Word} {op : Nat} {kk : Byte} (hop : opField w = op) (hkk : w.toNat % 256 = kk.toNat) :
    wordXkk op (xField w) kk = w := by
  apply BitVec.eq_of_toNat_eq
  have := w.isLt
  subst hop
  simp only [wordXkk, opField, xField, ← hkk, BitVec.toNat_ofNat]; omega

/-- A word of format XYN, or XY, is made of its opcode, its two registers and its low nibble. -/
theorem wordXyn_fields {w : Word} {op : Nat} {n : BitVec 4} (hop : opField w = op) (hn : w.toNat % 16 = n.toNat) :
    wordXyn op (xField w) (yField w) n = w := by
  apply BitVec.eq_of_toNat_eq
  have := w.isLt
  subst hop
  simp only [wordXyn, opField, xField, yField, ← hn, BitVec.toNat_ofNat]; omega

theorem toNat_kkField (w : Word) : (kkField w).toNat = w.toNat % 256 := by
  simp only [kkField, BitVec.toNat_ofNat]; omega

theorem toNat_nField (w : Word) : (nField w).toNat = w.toNat % 16 := by
  simp only [nField, BitVec.toNat_ofNat]; omega

/-- The decoder reads back what the encoder writes: one case per format of R73. -/
theorem decode_encode (i : Instr) : decode (encode i) = .instr i := by
  cases i with
  | cls | ret => decide
  | jp | call | ldI | jpV0 => simp [encode, decode, opField_wordNnn, nnnField_wordNnn]
  | seImm | sneImm | ldImm | addImm | rnd =>
    simp [encode, decode, opField_wordXkk, xField_wordXkk, kkField_wordXkk]
  | drw => simp [encode, decode, opField_wordXyn, xField_wordXyn, yField_wordXyn, nField_wordXyn]
  | seReg | sneReg | ldReg | orReg | andReg | xorReg | addReg | sub | shr | subn | shl =>
    simp [encode, decode, decodeGroup8, opField_wordXyn, lowNibble_wordXyn, xField_wordXyn, yField_wordXyn]
  | skp | sknp => simp [encode, decode, decodeGroupE, opField_wordXkk, lowByte_wordXkk, xField_wordXkk]
  | ldVxDT | ldVxK | ldDTVx | ldSTVx | addI | ldF | ldB | ldMemVx | ldVxMem =>
    simp [encode, decode, decodeGroupF, opField_wordXkk, lowByte_wordXkk, xField_wordXkk]

/-- The word a decoded answer stands for: the encoding of an instruction, or the unknown word itself. -/
def Decoded.word : Decoded → Word
  | .instr i => encode i
  | .unknown w => w

theorem word_decodeGroup0 (w : Word) : (decodeGroup0 w).word = w := by
  unfold decodeGroup0
  split_ifs with hcls hret
  · exact BitVec.eq_of_toNat_eq hcls.symm
  · exact BitVec.eq_of_toNat_eq hret.symm
  · rfl

theorem word_decodeGroup8 {w : Word} (hop : opField w = 0x8) : (decodeGroup8 w).word = w := by
  unfold decodeGroup8
  split
  case h_10 => rfl
  all_goals next hlow => exact wordXyn_fields hop hlow

theorem word_decodeGroupE {w : Word} (hop : opField w = 0xE) : (decodeGroupE w).word = w := by
  unfold decodeGroupE
  split_ifs with hskp hsknp
  · exact wordXkk_fields hop hskp
  · exact wordXkk_fields hop hsknp
  · rfl

theorem word_decodeGroupF {w : Word} (hop : opField w = 0xF) : (decodeGroupF w).word = w := by
  unfold decodeGroupF
  split_ifs
  case neg => rfl
  all_goals next hlow => exact wordXkk_fields hop hlow

/-- The decoder drops no bit of a word: case `h_k` of the split is primary opcode `k - 1`, the last is no opcode. -/
theorem word_decode (w : Word) : (decode w).word = w := by
  unfold decode
  split <;> rename_i hop
  case h_1 => exact word_decodeGroup0 w
  case h_9 => exact word_decodeGroup8 hop
  case h_15 => exact word_decodeGroupE hop
  case h_16 => exact word_decodeGroupF hop
  case h_2 | h_3 | h_11 | h_12 => exact wordNnn_fields hop
  case h_4 | h_5 | h_7 | h_8 | h_13 => exact wordXkk_fields hop (toNat_kkField w).symm
  case h_14 => exact wordXyn_fields hop (toNat_nField w).symm
  case h_6 | h_10 =>
    split
    · next hlow => exact wordXyn_fields hop hlow
    · rfl
  case h_17 => rfl

/-- Each instruction is the meaning of its encoding and of no other word. -/
theorem decode_eq_instr_iff {w : Word} {i : Instr} : decode w = .instr i ↔ w = encode i := by
  constructor
  · intro h
    have hword := word_decode w
    rw [h] at hword
    exact hword.symm
  · rintro rfl
    exact decode_encode i

/-- Groups 5 and 9 compare the low nibble with 0 (30_encoding.md R76). -/
theorem decode_unknown_of_skip_group {w : Word} (hop : opField w = 0x5 ∨ opField w = 0x9) (hlow : w.toNat % 16 ≠ 0) :
    decode w = .unknown w := by
  rcases hop with hop | hop <;> simp [decode, hop, hlow]

theorem encodedAs_of_encode {i : Instr} {n : Nat} (hn : (encode i).toNat = n) : EncodedAs i n := by
  intro w
  rw [decode_eq_instr_iff, BitVec.toNat_eq, hn]

theorem encodedAs_of_wordNnn {i : Instr} {op : Nat} {nnn : BitVec 12} (hi : encode i = wordNnn op nnn) (hop : op < 16) :
    EncodedAs i (op * 0x1000 + nnn.toNat) :=
  encodedAs_of_encode (hi ▸ toNat_wordNnn hop nnn)

theorem encodedAs_of_wordXkk {i : Instr} {op : Nat} {x : Reg} {kk : Byte} (hi : encode i = wordXkk op x kk) (hop : op < 16) :
    EncodedAs i (op * 0x1000 + 256 * x.val + kk.toNat) :=
  encodedAs_of_encode (by rw [hi, toNat_wordXkk hop, Nat.mul_comm 256])

theorem encodedAs_of_wordXyn {i : Instr} {op : Nat} {x y : Reg} {n : BitVec 4} (hi : encode i = wordXyn op x y n)
    (hop : op < 16) : EncodedAs i (op * 0x1000 + 256 * x.val + 16 * y.val + n.toNat) :=
  encodedAs_of_encode (by rw [hi, toNat_wordXyn hop, Nat.mul_comm 256, Nat.mul_comm 16])

end Sys2Proof
end

/-! ### Jumps and skips (41_control_flow.md R122, R124-R127) -/

section
namespace Sys2Proof.Machine

theorem exec_jp (nnn : BitVec 12) (s : State) : exec (.jp nnn) s = .next (s.jump nnn.toNat) := rfl

theorem exec_seImm (x : Reg) (kk : Byte) (s : State) :
    exec (.seImm x kk) s = .next (s.skipIf (s.getV x == kk)) := rfl

theorem exec_sneImm (x : Reg) (kk : Byte) (s : State) :
    exec (.sneImm x kk) s = .next (s.skipIf (s.getV x != kk)) := rfl

theorem exec_seReg (x y : Reg) (s : State) :
    exec (.seReg x y) s = .next (s.skipIf (s.getV x == s.getV y)) := rfl

theorem exec_sneReg (x y : Reg) (s : State) :
    exec (.sneReg x y) s = .next (s.skipIf (s.getV x != s.getV y)) := rfl

theorem State.changesOnly_jump (s : State) (n : Nat) : ChangesOnly [.pc] s (s.jump n) := by
  intro p hp
  cases p with
  | pc => exact absurd (List.mem_singleton_self _) hp
  | mem | v | i | stack | sp | dt | st | pixel | redraw | key | fault | draws => rfl

theorem State.toNat_jump_pc {n : Nat} (s : State) (h : n < 0x10000) : (s.jump n).pc.toNat = n := by
  rw [State.jump_pc, BitVec.toNat_ofNat, Nat.mod_eq_of_lt h]

/-- The kind Skip (40_cycle.md R104): what completes so advances PC by 4 under a condition, by 2 under its complement. -/
theorem exists_next_of_skipIf {o : Result} {s : State} {c : Bool} {P Q : Prop} (ho : o = .next (s.skipIf c))
    (hP : P → c = true) (hQ : Q → c = false) :
    ∃ t, o = .next t ∧ (P → PcAdvanced 4 s t) ∧ (Q → PcAdvanced 2 s t) ∧ ChangesOnly [.pc] s t := by
  refine ⟨_, ho, fun h => ?_, fun h => ?_, s.changesOnly_jump _⟩
  · rw [hP h]
    exact s.toNat_jump_pc
  · rw [hQ h]
    exact s.toNat_jump_pc

/-- A jump to its own address is the kind Stay (40_cycle.md R104). -/
theorem State.jump_eq_self {s : State} {n : Nat} (h : n = s.pc.toNat) : s.jump n = s := by
  subst h
  exact s.stay_eq

theorem fetch_eq_error_of_lt {s : State} (h : 0xFFE < s.pc.toNat) : ∃ r, fetch s = .error r := by
  rw [fetch_eq, if_neg (Nat.not_le.2 h)]
  exact ⟨_, rfl⟩

end Sys2Proof.Machine
end

section
namespace Sys2Proof
open Sys2Proof.Machine

/-- Settles O34: the jump commits nnn, which 16 bits hold; to its own address it is the kind Stay, and no word can be fetched
at 0xFFF. -/
theorem jumpGoesToItsTarget : Obligations.JumpGoesToItsTarget := by
  intro nnn
  refine ⟨encodedAs_of_wordNnn (op := 0x1) rfl (by decide), fun s => ?_⟩
  have hpc : (s.jump nnn.toNat).pc.toNat = nnn.toNat := s.toNat_jump_pc (by omega)
  refine ⟨_, exec_jp nnn s, hpc, s.changesOnly_jump _, State.jump_eq_self, ?_⟩
  rintro rfl
  exact fetch_eq_error_of_lt (by rw [hpc]; decide)

/-- Settles O36: both are one conditional skip (`skipIf`), on the equality and on its negation. -/
theorem immediateSkipsCompareTheRegister : Obligations.ImmediateSkipsCompareTheRegister := by
  intro x kk
  refine ⟨encodedAs_of_wordXkk (op := 0x3) rfl (by decide), encodedAs_of_wordXkk (op := 0x4) rfl (by decide),
    fun s => ⟨?_, ?_⟩⟩
  · exact exists_next_of_skipIf (exec_seImm x kk s) beq_iff_eq.2 beq_eq_false_iff_ne.2
  · exact exists_next_of_skipIf (exec_sneImm x kk s) bne_iff_ne.2 bne_eq_false_iff_eq.2

/-- Settles O37: the same conditional skip on two registers; the decoder answers the two groups only at low nibble 0. -/
theorem registerSkipsCompareTwoRegisters : Obligations.RegisterSkipsCompareTwoRegisters := by
  intro x y
  refine ⟨encodedAs_of_wordXyn (op := 0x5) (n := 0) rfl (by decide),
    encodedAs_of_wordXyn (op := 0x9) (n := 0) rfl (by decide),
    fun _ => decode_unknown_of_skip_group, fun s => ⟨?_, ?_⟩⟩
  · exact exists_next_of_skipIf (exec_seReg x y s) beq_iff_eq.2 beq_eq_false_iff_ne.2
  · exact exists_next_of_skipIf (exec_sneReg x y s) bne_iff_ne.2 bne_eq_false_iff_eq.2

end Sys2Proof
end

/-! ### Register loads and the bitwise operations (42_alu.md R141-R146) -/

section
namespace Sys2Proof
open Sys2Proof.Machine

/-- A word of format XY: the low nibble stands in the row's pattern, as in 0x8xy1. -/
theorem encodedAs_of_pattern {i : Instr} {op p : Nat} {x y : Reg} {n : BitVec 4} (hi : encode i = wordXyn op x y n)
    (hop : op < 16) (hp : p = op * 0x1000 + n.toNat) : EncodedAs i (p + 256 * x.val + 16 * y.val) := by
  have hword : p + 256 * x.val + 16 * y.val = op * 0x1000 + 256 * x.val + 16 * y.val + n.toNat := by omega
  rw [hword]
  exact encodedAs_of_wordXyn hi hop

end Sys2Proof

namespace Sys2Proof.Machine

theorem exec_ldImm (x : Reg) (kk : Byte) (s : State) : exec (.ldImm x kk) s = .next (s.setV x kk).seq := rfl

theorem exec_addImm (x : Reg) (kk : Byte) (s : State) :
    exec (.addImm x kk) s = .next (s.setV x (s.getV x + kk)).seq := rfl

theorem exec_ldReg (x y : Reg) (s : State) : exec (.ldReg x y) s = .next (s.setV x (s.getV y)).seq := rfl

theorem exec_orReg (x y : Reg) (s : State) : exec (.orReg x y) s = .next (s.setV x (s.getV x ||| s.getV y)).seq := rfl

theorem exec_andReg (x y : Reg) (s : State) : exec (.andReg x y) s = .next (s.setV x (s.getV x &&& s.getV y)).seq := rfl

theorem exec_xorReg (x y : Reg) (s : State) : exec (.xorReg x y) s = .next (s.setV x (s.getV x ^^^ s.getV y)).seq := rfl

theorem Part.Same.trans {p : Part} {s t u : State} (hst : p.Same s t) (htu : p.Same t u) : p.Same s u := by
  cases p <;> exact Eq.trans htu hst

/-- Frames compose: two changes in turn touch the parts of the one and the parts of the other. -/
theorem ChangesOnly.append {ps qs : List Part} {s t u : State} (hst : ChangesOnly ps s t) (htu : ChangesOnly qs t u) :
    ChangesOnly (ps ++ qs) s u := by
  intro p hp
  obtain ⟨hps, hqs⟩ := not_or.1 (List.mem_append.not.1 hp)
  exact (hst p hps).trans (htu p hqs)

theorem State.changesOnly_setV (s : State) (x : Reg) (b : Byte) : ChangesOnly [.v x] s (s.setV x b) := by
  intro p hp
  cases p with
  | v y =>
    have hyx : y ≠ x := fun h => hp (h ▸ List.mem_singleton_self _)
    exact (s.getV_setV x b y).trans (if_neg hyx)
  | mem | pc | i | stack | sp | dt | st | pixel | redraw | key | fault | draws => rfl

theorem State.changesOnly_seq (s : State) : ChangesOnly [.pc] s s.seq := s.changesOnly_jump _

/-- The kind Seq (40_cycle.md R104), after a change that leaves PC alone. -/
theorem pcAdvanced_seq {s u : State} (hpc : u.pc = s.pc) : PcAdvanced 2 s u.seq := by
  rw [PcAdvanced, ← hpc]
  exact u.toNat_jump_pc

/-- What completes by writing one register and going on at A + 2: the register reads as the byte written, for VF as for any
other, and nothing else changes but PC. -/
theorem exists_next_of_setV_seq {o : Result} {s : State} {x : Reg} {b : Byte} {Q : State → Prop}
    (ho : o = .next (s.setV x b).seq) (hQ : ∀ t : State, t.getV x = b → Q t) :
    ∃ t, o = .next t ∧ Q t ∧ PcAdvanced 2 s t ∧ ChangesOnly [.v x, .pc] s t := by
  have hx : (s.setV x b).seq.getV x = b := s.getV_setV_same x b
  exact ⟨_, ho, hQ _ hx, pcAdvanced_seq (s.setV_pc x b), (s.changesOnly_setV x b).append (State.changesOnly_seq _)⟩

end Sys2Proof.Machine
end

section
namespace Sys2Proof
open Sys2Proof.Machine

/-- Settles O38: each writes one register and goes on at A + 2 (`exists_next_of_setV_seq`); the sum of bytes is modulo 256. -/
theorem immediateLoadAndAdd : Obligations.ImmediateLoadAndAdd := by
  intro x kk
  refine ⟨encodedAs_of_wordXkk (op := 0x6) rfl (by decide), encodedAs_of_wordXkk (op := 0x7) rfl (by decide),
    fun s => ⟨?_, ?_⟩⟩
  · exact exists_next_of_setV_seq (exec_ldImm x kk s) fun _ ht => ht
  · exact exists_next_of_setV_seq (exec_addImm x kk s) fun _ ht => ht ▸ BitVec.toNat_add ..

/-- Settles O39: the same one write, of a copy or of a bitwise result, which is read off bit by bit. -/
theorem copyAndBitwiseResults : Obligations.CopyAndBitwiseResults := by
  intro x y
  refine ⟨encodedAs_of_pattern (op := 0x8) (n := 0x0) rfl (by decide) rfl,
    encodedAs_of_pattern (op := 0x8) (n := 0x1) rfl (by decide) rfl,
    encodedAs_of_pattern (op := 0x8) (n := 0x2) rfl (by decide) rfl,
    encodedAs_of_pattern (op := 0x8) (n := 0x3) rfl (by decide) rfl, fun s => ⟨?_, ?_, ?_, ?_⟩⟩
  · exact exists_next_of_setV_seq (exec_ldReg x y s) fun _ ht => ht
  · exact exists_next_of_setV_seq (exec_orReg x y s) fun _ ht _ => ht ▸ BitVec.getLsbD_or
  · exact exists_next_of_setV_seq (exec_andReg x y s) fun _ ht _ => ht ▸ BitVec.getLsbD_and
  · exact exists_next_of_setV_seq (exec_xorReg x y s) fun _ ht _ => ht ▸ BitVec.getLsbD_xor

end Sys2Proof
end

/-! ### Loading the index register (43_index_memory.md R170) -/

section
namespace Sys2Proof.Machine

theorem exec_ldI (nnn : BitVec 12) (s : State) :
    exec (.ldI nnn) s = .next { s with i := BitVec.ofNat 16 nnn.toNat }.seq := rfl

theorem State.changesOnly_withI (s : State) (a : Word) : ChangesOnly [.i] s { s with i := a } := by
  intro p hp
  cases p with
  | i => exact absurd (List.mem_singleton_self _) hp
  | mem | v | pc | stack | sp | dt | st | pixel | redraw | key | fault | draws => rfl

/-- What completes by writing I and going on at A + 2: I holds the word written, and nothing else changes but PC. -/
theorem exists_next_of_withI_seq {o : Result} {s : State} {a : Word} {Q : State → Prop}
    (ho : o = .next { s with i := a }.seq) (hQ : ∀ t : State, t.i = a → Q t) :
    ∃ t, o = .next t ∧ Q t ∧ PcAdvanced 2 s t ∧ ChangesOnly [.i, .pc] s t :=
  ⟨_, ho, hQ _ (State.seq_i _), pcAdvanced_seq rfl, (s.changesOnly_withI a).append (State.changesOnly_seq _)⟩

end Sys2Proof.Machine
end

section
namespace Sys2Proof
open Sys2Proof.Machine

/-- Settles O44: one write of I and on to A + 2 (`exists_next_of_withI_seq`); the 16 bits of I hold the 12 of nnn. -/
theorem loadIndexSetsI : Obligations.LoadIndexSetsI := by
  intro nnn
  refine ⟨encodedAs_of_wordNnn (op := 0xA) rfl (by decide), fun s => ?_⟩
  have hfits : (BitVec.ofNat 16 nnn.toNat).toNat = nnn.toNat := by rw [BitVec.toNat_ofNat]; omega
  exact exists_next_of_withI_seq (exec_ldI nnn s) fun t ht => ht ▸ hfits

end Sys2Proof
end

/-! ### Clearing the framebuffer (44_display.md R190) -/

section
namespace Sys2Proof.Machine

theorem exec_cls (s : State) : exec .cls s = .next { s with fb := clearFramebuffer, redraw := true }.seq := rfl

theorem pixel_mem_allPixels (c : Fin 64) (r : Fin 32) : Part.pixel c r ∈ allPixels :=
  List.mem_flatMap.2 ⟨c, List.mem_finRange c, List.mem_map.2 ⟨r, List.mem_finRange r, rfl⟩⟩

theorem State.changesOnly_withFb (s : State) (fb : Framebuffer) : ChangesOnly allPixels s { s with fb := fb } := by
  intro p hp
  cases p with
  | pixel c r => exact absurd (pixel_mem_allPixels c r) hp
  | mem | v | i | pc | stack | sp | dt | st | redraw | key | fault | draws => rfl

theorem State.changesOnly_withRedraw (s : State) (b : Bool) : ChangesOnly [.redraw] s { s with redraw := b } := by
  intro p hp
  cases p with
  | redraw => exact absurd (List.mem_singleton_self _) hp
  | mem | v | i | pc | stack | sp | dt | st | pixel | key | fault | draws => rfl

end Sys2Proof.Machine
end

section
namespace Sys2Proof
open Sys2Proof.Machine

/-- Settles O51: three changes in turn, the clear framebuffer, the redraw flag and PC, none of which looks at what the pixels
or the flag were; their frames compose to the frame of the statement. -/
theorem clearZeroesEveryPixel : Obligations.ClearZeroesEveryPixel := by
  refine ⟨encodedAs_of_encode rfl, fun s => ⟨_, exec_cls s, getPixel_clear, rfl, pcAdvanced_seq rfl, ?_⟩⟩
  have hpixels := s.changesOnly_withFb clearFramebuffer
  have hredraw := State.changesOnly_withRedraw { s with fb := clearFramebuffer } true
  exact hpixels.append (hredraw.append (State.changesOnly_seq _))

end Sys2Proof
end

/-! ### Reading the delay timer (45_input_timers.md R212) -/

section
namespace Sys2Proof
open Sys2Proof.Machine

/-- A word of format X: the low byte stands in the row's pattern, as in 0xFx07. -/
theorem encodedAs_of_patternX {i : Instr} {op p : Nat} {x : Reg} {kk : Byte} (hi : encode i = wordXkk op x kk)
    (hop : op < 16) (hp : p = op * 0x1000 + kk.toNat) : EncodedAs i (p + 256 * x.val) := by
  rw [hp, Nat.add_right_comm]
  exact encodedAs_of_wordXkk hi hop

end Sys2Proof

namespace Sys2Proof.Machine

theorem exec_ldVxDT (x : Reg) (s : State) : exec (.ldVxDT x) s = .next (s.setV x s.dt).seq := rfl

@[simp] theorem State.getV_tick (s : State) (x : Reg) : s.tick.getV x = s.getV x := State.getV_congr s.tick_v x

end Sys2Proof.Machine
end

section
namespace Sys2Proof
open Sys2Proof.Machine

/-- Settles O57: one write of a register and on to A + 2 (`exists_next_of_setV_seq`). That frame leaves DT alone, so the tick
finds the DT that was read, counts it down and touches no register. -/
theorem delayTimerIsReadBeforeTheTick : Obligations.DelayTimerIsReadBeforeTheTick := by
  intro x
  refine ⟨encodedAs_of_patternX (op := 0xF) (kk := 0x07) rfl (by decide) rfl, fun s => ?_⟩
  obtain ⟨t, hnext, hx, hpc, hframe⟩ :=
    exists_next_of_setV_seq (Q := fun t => t.getV x = s.dt) (exec_ldVxDT x s) fun _ ht => ht
  have hdt : t.dt = s.dt := hframe .dt (by simp)
  have htick : t.tick.dt.toNat = s.dt.toNat - 1 := hdt ▸ t.toNat_tick_dt
  exact ⟨t, hnext, hx, (t.getV_tick x).trans hx, htick, hpc, hframe⟩

end Sys2Proof
end

/-! ### Loading a program (70_reset_and_hazards.md R262) -/

section
namespace Sys2Proof.Machine

theorem StateRecord.load_of_fits {s : StateRecord} {bytes : List Byte} (h : bytes.length ≤ maxProgram) :
    s.load bytes = .ok { s with mem := s.mem.writeBytes programBase bytes } := if_pos h

theorem mem_memParts {a n b : Nat} (hlo : a ≤ b) (hhi : b < a + n) : Part.mem b ∈ memParts a n :=
  List.mem_map.2 ⟨b - a, List.mem_range.2 (by omega), by rw [Nat.add_sub_cancel' hlo]⟩

theorem Memory.read_writeBytes_outside {m : Memory} {a b : Nat} {bs : List Byte} (h : ¬(a ≤ b ∧ b < a + bs.length)) :
    (m.writeBytes a bs).read b = m.read b := by
  rw [Memory.read_writeBytes, if_neg h]

theorem Memory.read_writeBytes_inside (m : Memory) (a : Nat) {bs : List Byte} {k : Nat} (h : k < bs.length) :
    (m.writeBytes a bs).read (a + k) = bs[k] := by
  rw [Memory.read_writeBytes, if_pos (by omega), Nat.add_sub_cancel_left, List.getD_eq_getElem _ _ h]

theorem State.changesOnly_writeBytes (s : State) (a : Nat) (bs : List Byte) :
    ChangesOnly (memParts a bs.length) s { s with mem := s.mem.writeBytes a bs } := by
  intro p hp
  cases p with
  | mem b => exact Memory.read_writeBytes_outside fun hb => hp (mem_memParts hb.1 hb.2)
  | v | i | pc | stack | sp | dt | st | pixel | redraw | key | fault | draws => rfl

end Sys2Proof.Machine
end

section
namespace Sys2Proof
open Sys2Proof.Machine

/-- Settles O27: a program that fits is one write of several bytes at 0x200; each of its bytes is read back at its address,
and what that write leaves unchanged is all the rest. -/
theorem loadCopiesTheProgram : Obligations.LoadCopiesTheProgram := by
  intro s bytes hfits
  exact ⟨_, StateRecord.load_of_fits hfits, fun _ hk => s.mem.read_writeBytes_inside 0x200 hk,
    s.asState.changesOnly_writeBytes 0x200 bytes⟩

end Sys2Proof
end

/-! ### Round trips and the unknown words (30_encoding.md R74-R76) -/

section
namespace Sys2Proof

theorem decodeGroup0_eq_unknown_iff {w : Word} :
    decodeGroup0 w = .unknown w ↔ w.toNat ≠ 0x00E0 ∧ w.toNat ≠ 0x00EE := by
  unfold decodeGroup0
  split_ifs <;> simp [*]

theorem decodeGroup8_eq_unknown_iff {w : Word} :
    decodeGroup8 w = .unknown w ↔ w.toNat % 16 ∈ [0x8, 0x9, 0xA, 0xB, 0xC, 0xD, 0xF] := by
  unfold decodeGroup8
  split
  case h_10 =>
    simp only [imp_false] at *
    simp only [List.mem_cons, List.not_mem_nil, true_iff]
    omega
  all_goals next hlow => simp [hlow]

theorem decodeGroupE_eq_unknown_iff {w : Word} :
    decodeGroupE w = .unknown w ↔ w.toNat % 256 ∉ [0x9E, 0xA1] := by
  unfold decodeGroupE
  split_ifs <;> simp [*]

theorem decodeGroupF_eq_unknown_iff {w : Word} :
    decodeGroupF w = .unknown w ↔ w.toNat % 256 ∉ [0x07, 0x0A, 0x15, 0x18, 0x1E, 0x29, 0x33, 0x55, 0x65] := by
  unfold decodeGroupF
  split_ifs <;> simp [*]

/-- Settles O2: the decoder reads back what the encoder writes (`decode_encode`), every `Instr` being well-formed. -/
theorem decodeOfEncodeIsIdentity : Obligations.DecodeOfEncodeIsIdentity :=
  fun i _ => decode_encode i

/-- Settles O3: the decoder drops no bit of a word (`decode_eq_instr_iff`, by `word_decode`). -/
theorem encodeOfDecodeIsIdentity : Obligations.EncodeOfDecodeIsIdentity :=
  fun _ _ h => (decode_eq_instr_iff.1 h).symm

/-- Settles O5: one case per primary opcode; case `h_k` of the split is primary opcode `k - 1`, and there are no more than 16. -/
theorem unknownWordsAreTheListedGroups : Obligations.UnknownWordsAreTheListedGroups := by
  intro w
  have hgroup0 : w.toNat < 0x1000 ↔ opField w = 0 := by rw [opField]; omega
  rw [hgroup0]
  change _ ↔ (opField w = 0 ∧ _) ∨ (opField w = 5 ∧ _) ∨ (opField w = 8 ∧ _) ∨ (opField w = 9 ∧ _) ∨
    (opField w = 0xE ∧ _) ∨ (opField w = 0xF ∧ _)
  unfold decode
  split <;> rename_i hop
  case h_1 => simp [decodeGroup0_eq_unknown_iff, hop]
  case h_6 | h_10 => split_ifs <;> simp [*]
  case h_9 => simp [decodeGroup8_eq_unknown_iff, hop]
  case h_15 => simp [decodeGroupE_eq_unknown_iff, hop]
  case h_16 => simp [decodeGroupF_eq_unknown_iff, hop]
  case h_17 =>
    have hlt : opField w < 16 := Nat.div_lt_of_lt_mul w.isLt
    simp only [imp_false] at *
    omega
  all_goals simp [hop]

/-- Settles O1: the decoder computes on each of the twelve words. -/
theorem specExampleWordsDecode : Obligations.SpecExampleWordsDecode := by
  unfold Obligations.SpecExampleWordsDecode
  decide

end Sys2Proof
end

/-! ### What each instruction leaves, and its one check (60_exceptions.md R230, R237) -/

section
namespace Sys2Proof.Machine

theorem exec_jpV0 (nnn : BitVec 12) (s : State) :
    exec (.jpV0 nnn) s = .next (s.jump (nnn.toNat + (s.getV 0).toNat)) := rfl

theorem exec_ret_of_runs {s : State} (h : RunsNormally s .ret) :
    exec .ret s = .next (State.jump { s with sp := ⟨s.sp.val - 1, by omega⟩ }
      ((s.stack[s.sp.val - 1]'(by have : 0 < s.sp.val := h; omega)).toNat + 2)) := by
  rw [exec, execRet, State.pop?_eq_some.2 ⟨h, rfl, rfl⟩]

theorem exec_ret_of_empty {s : State} (h : s.sp.val = 0) : exec .ret s = raise .stackUnderflow s := by
  rw [exec, execRet, State.pop?_eq_none.2 h]

theorem exec_call_of_runs {nnn : BitVec 12} {s : State} (h : RunsNormally s (.call nnn)) :
    exec (.call nnn) s = .next (State.jump { s with
      stack := s.stack.set s.sp.val s.pc h
      sp := ⟨s.sp.val + 1, Nat.succ_lt_succ h⟩ } nnn.toNat) := by
  rw [exec, execCall, State.push?_eq_some.2 ⟨h, rfl⟩]
  rfl

theorem exec_call_of_full {nnn : BitVec 12} {s : State} (h : s.sp.val = 16) :
    exec (.call nnn) s = raise .stackOverflow s := by
  rw [exec, execCall, State.push?_eq_none.2 h]

/-- What DRW leaves where it completes: the pixels, the redraw flag, then VF (44_display.md R191). -/
def State.drawn (s : State) (x y : Reg) (n : BitVec 4) : State :=
  State.setV { s with fb := (drawPixels (s.spriteCover x y n) (s.fb, false)).1, redraw := true } VF
    (collisionFlag (drawPixels (s.spriteCover x y n) (s.fb, false)).2)

theorem exec_drw (x y : Reg) (n : BitVec 4) (s : State) :
    exec (.drw x y n) s =
      if n.toNat = 0 ∨ s.i.toNat + n.toNat - 1 ≤ 0xFFF then .next (s.drawn x y n).seq
      else raise (.memoryOutOfRange .read (max s.i.toNat 0x1000)) s :=
  withAccess_eq ..

theorem exec_drw_of_runs {x y : Reg} {n : BitVec 4} {s : State} (h : RunsNormally s (.drw x y n)) :
    exec (.drw x y n) s = .next (s.drawn x y n).seq :=
  (exec_drw ..).trans (if_pos (h.imp_left (congrArg BitVec.toNat)))

theorem exec_ldB (x : Reg) (s : State) :
    exec (.ldB x) s =
      if s.i.toNat + 2 ≤ 0xFFF then .next (State.seq { s with mem := s.mem.writeBytes s.i.toNat (bcdDigits (s.getV x)) })
      else raise (.memoryOutOfRange .write (max s.i.toNat 0x1000)) s :=
  (withAccess_eq ..).trans (if_congr (by simp [State.iAddr]) rfl rfl)

theorem exec_ldB_of_runs {x : Reg} {s : State} (h : RunsNormally s (.ldB x)) :
    exec (.ldB x) s = .next (State.seq { s with mem := s.mem.writeBytes s.i.toNat (bcdDigits (s.getV x)) }) :=
  (exec_ldB ..).trans (if_pos h)

theorem exec_ldMemVx (x : Reg) (s : State) :
    exec (.ldMemVx x) s =
      if s.i.toNat + x.val ≤ 0xFFF then .next (State.seq { s with mem := s.mem.writeBytes s.i.toNat (s.regsUpTo x) })
      else raise (.memoryOutOfRange .write (max s.i.toNat 0x1000)) s :=
  (withAccess_eq ..).trans (if_congr (by simp [State.iAddr]) rfl rfl)

theorem exec_ldMemVx_of_runs {x : Reg} {s : State} (h : RunsNormally s (.ldMemVx x)) :
    exec (.ldMemVx x) s = .next (State.seq { s with mem := s.mem.writeBytes s.i.toNat (s.regsUpTo x) }) :=
  (exec_ldMemVx ..).trans (if_pos h)

theorem exec_ldVxMem (x : Reg) (s : State) :
    exec (.ldVxMem x) s =
      if s.i.toNat + x.val ≤ 0xFFF then
        .next (State.seq { s with v := writeRegs s.v 0 (s.mem.readBytes s.i.toNat (x.val + 1)) })
      else raise (.memoryOutOfRange .read (max s.i.toNat 0x1000)) s :=
  (withAccess_eq ..).trans (if_congr (by simp [State.iAddr]) rfl rfl)

theorem exec_ldVxMem_of_runs {x : Reg} {s : State} (h : RunsNormally s (.ldVxMem x)) :
    exec (.ldVxMem x) s =
      .next (State.seq { s with v := writeRegs s.v 0 (s.mem.readBytes s.i.toNat (x.val + 1)) }) :=
  (exec_ldVxMem ..).trans (if_pos h)

theorem exec_skp {x : Reg} {s : State} {down : Bool} (h : s.key[(s.getV x).toNat]? = some down) :
    exec (.skp x) s = .next (s.skipIf down) := by
  rw [exec, execSkp, State.keyAt?, h]

theorem exec_sknp {x : Reg} {s : State} {down : Bool} (h : s.key[(s.getV x).toNat]? = some down) :
    exec (.sknp x) s = .next (s.skipIf (!down)) := by
  rw [exec, execSknp, State.keyAt?, h]

theorem exec_skp_of_runs {x : Reg} {s : State} (h : RunsNormally s (.skp x)) :
    exec (.skp x) s = .next (s.skipIf (s.key[(s.getV x).toNat]'(Nat.lt_succ_of_le h))) :=
  exec_skp (Vector.getElem?_eq_getElem _)

theorem exec_sknp_of_runs {x : Reg} {s : State} (h : RunsNormally s (.sknp x)) :
    exec (.sknp x) s = .next (s.skipIf (!s.key[(s.getV x).toNat]'(Nat.lt_succ_of_le h))) :=
  exec_sknp (Vector.getElem?_eq_getElem _)

theorem exec_skp_of_no_key {x : Reg} {s : State} (h : (s.getV x).toNat > 0xF) :
    exec (.skp x) s = raise (.keyIndexOutOfRange (s.getV x)) s := by
  rw [exec, execSkp, State.keyAt?, Vector.getElem?_eq_none (by omega)]

theorem exec_sknp_of_no_key {x : Reg} {s : State} (h : (s.getV x).toNat > 0xF) :
    exec (.sknp x) s = raise (.keyIndexOutOfRange (s.getV x)) s := by
  rw [exec, execSknp, State.keyAt?, Vector.getElem?_eq_none (by omega)]

theorem exec_ldVxK_of_up (x : Reg) {s : State} (h : ∀ k : Fin 16, s.key[k.val] = false) : exec (.ldVxK x) s = .next s := by
  rw [exec, execLdVxK, lowestKeyDown_eq_none.2 h]
  exact congrArg _ s.stay_eq

theorem exec_ldVxK_of_down (x : Reg) {s : State} {k : Fin 16} (hk : s.key[k.val] = true)
    (hlow : ∀ j : Fin 16, j < k → s.key[j.val] = false) :
    exec (.ldVxK x) s = .next (s.setV x (BitVec.ofNat 8 k.val)).seq := by
  rw [exec, execLdVxK, lowestKeyDown_eq_some.2 ⟨k, rfl, hk, hlow⟩]

/-- The two forms of Fx0A: no key down, or a lowest one. -/
theorem exists_lowest_key (keys : Keypad) :
    (∀ k : Fin 16, keys[k.val] = false) ∨
      ∃ k : Fin 16, keys[k.val] = true ∧ ∀ j : Fin 16, j < k → keys[j.val] = false := by
  cases h : lowestKeyDown keys with
  | none => exact .inl (lowestKeyDown_eq_none.1 h)
  | some n =>
    obtain ⟨k, -, hk⟩ := lowestKeyDown_eq_some.1 h
    exact .inr ⟨k, hk⟩

/-- The table of 60_exceptions.md R230 for execute: which instruction raises which reason, and where its check fails. -/
inductive Fails (s : State) : Instr → FaultReason → Prop where
  | call (nnn : BitVec 12) (h : s.sp.val = 16) : Fails s (.call nnn) .stackOverflow
  | ret (h : s.sp.val = 0) : Fails s .ret .stackUnderflow
  | ldB (x : Reg) (h : s.i.toNat + 2 > 0xFFF) : Fails s (.ldB x) (.memoryOutOfRange .write (max s.i.toNat 0x1000))
  | ldMemVx (x : Reg) (h : s.i.toNat + x.val > 0xFFF) :
    Fails s (.ldMemVx x) (.memoryOutOfRange .write (max s.i.toNat 0x1000))
  | ldVxMem (x : Reg) (h : s.i.toNat + x.val > 0xFFF) :
    Fails s (.ldVxMem x) (.memoryOutOfRange .read (max s.i.toNat 0x1000))
  | drw (x y : Reg) (n : BitVec 4) (hn : n.toNat > 0) (h : s.i.toNat + n.toNat - 1 > 0xFFF) :
    Fails s (.drw x y n) (.memoryOutOfRange .read (max s.i.toNat 0x1000))
  | skp (x : Reg) (h : (s.getV x).toNat > 0xF) : Fails s (.skp x) (.keyIndexOutOfRange (s.getV x))
  | sknp (x : Reg) (h : (s.getV x).toNat > 0xF) : Fails s (.sknp x) (.keyIndexOutOfRange (s.getV x))

theorem Fails.exec_eq {s : State} {i : Instr} {r : FaultReason} (h : Fails s i r) : exec i s = raise r s := by
  cases h with
  | call nnn h => exact exec_call_of_full h
  | ret h => exact exec_ret_of_empty h
  | ldB x h => rw [exec_ldB, if_neg (Nat.not_le.2 h)]
  | ldMemVx x h => rw [exec_ldMemVx, if_neg (Nat.not_le.2 h)]
  | ldVxMem x h => rw [exec_ldVxMem, if_neg (Nat.not_le.2 h)]
  | drw x y n hn h => rw [exec_drw, if_neg (by omega)]
  | skp x h => exact exec_skp_of_no_key h
  | sknp x h => exact exec_sknp_of_no_key h

theorem RunsNormally.exists_next {i : Instr} {s : State} (h : RunsNormally s i) : ∃ t, exec i s = .next t := by
  cases i with
  | call => exact ⟨_, exec_call_of_runs h⟩
  | ret => exact ⟨_, exec_ret_of_runs h⟩
  | ldB => exact ⟨_, exec_ldB_of_runs h⟩
  | ldMemVx => exact ⟨_, exec_ldMemVx_of_runs h⟩
  | ldVxMem => exact ⟨_, exec_ldVxMem_of_runs h⟩
  | drw => exact ⟨_, exec_drw_of_runs h⟩
  | skp => exact ⟨_, exec_skp_of_runs h⟩
  | sknp => exact ⟨_, exec_sknp_of_runs h⟩
  | ldVxK x =>
    rcases exists_lowest_key s.key with hup | ⟨k, hk, hlow⟩
    · exact ⟨_, exec_ldVxK_of_up x hup⟩
    · exact ⟨_, exec_ldVxK_of_down x hk hlow⟩
  | _ => exact ⟨_, rfl⟩

theorem runsNormally_or_fails (i : Instr) (s : State) : RunsNormally s i ∨ ∃ r, Fails s i r := by
  cases i with
  | call nnn => exact (Nat.lt_or_ge s.sp.val 16).imp_right fun h => ⟨_, .call nnn (by omega)⟩
  | ret => exact (Nat.eq_zero_or_pos s.sp.val).symm.imp_right fun h => ⟨_, .ret h⟩
  | ldB x => exact (le_or_gt _ _).imp_right fun h => ⟨_, .ldB x h⟩
  | ldMemVx x => exact (le_or_gt _ _).imp_right fun h => ⟨_, .ldMemVx x h⟩
  | ldVxMem x => exact (le_or_gt _ _).imp_right fun h => ⟨_, .ldVxMem x h⟩
  | skp x => exact (le_or_gt _ _).imp_right fun h => ⟨_, .skp x h⟩
  | sknp x => exact (le_or_gt _ _).imp_right fun h => ⟨_, .sknp x h⟩
  | drw x y n =>
    by_cases hn : n = 0
    · exact .inl (.inl hn)
    · have hpos : n.toNat > 0 := Nat.pos_of_ne_zero fun h => hn (BitVec.eq_of_toNat_eq h)
      exact (le_or_gt _ _).imp .inr fun h => ⟨_, .drw x y n hpos h⟩
  | _ => exact .inl trivial

/-- Everything an execute does: it completes where the instruction's one check passes, else it raises the reason of that check. -/
theorem exec_cases (i : Instr) (s : State) :
    (RunsNormally s i ∧ ∃ t, exec i s = .next t) ∨ ∃ r, Fails s i r ∧ exec i s = raise r s :=
  (runsNormally_or_fails i s).imp (fun h => ⟨h, h.exists_next⟩) fun ⟨r, h⟩ => ⟨r, h, h.exec_eq⟩

theorem runsNormally_of_next {i : Instr} {s t : State} (h : exec i s = .next t) : RunsNormally s i := by
  rcases exec_cases i s with ⟨hrun, -⟩ | ⟨r, -, hraise⟩
  · exact hrun
  · exact absurd (hraise.symm.trans h) (raise_ne_next _ _ _)

theorem fails_of_fault {i : Instr} {s : State} {f : Fault} (h : exec i s = .fault f) :
    ∃ r, Fails s i r ∧ f = .faulted r { s with fault := some r } := by
  rcases exec_cases i s with ⟨-, t, hnext⟩ | ⟨r, hfails, hraise⟩
  · rw [hnext] at h; cases h
  · exact ⟨r, hfails, raise_eq_fault.1 (hraise.symm.trans h)⟩

theorem exec_ne_refused (i : Instr) (s : State) (r : Refusal) : exec i s ≠ .refused r := by
  rcases exec_cases i s with ⟨-, t, hnext⟩ | ⟨f, -, hraise⟩
  · rw [hnext]; simp
  · rw [hraise]; exact raise_ne_refused _ _ _

end Sys2Proof.Machine
end

section
namespace Sys2Proof
open Sys2Proof.Machine

/-- Settles O14: a faulting execute is a failed check (`fails_of_fault`), one case per line of R230's table. -/
theorem eachFaultHasItsCause : Obligations.EachFaultHasItsCause := by
  intro i s t r h
  obtain ⟨r', hfails, heq⟩ := fails_of_fault h
  obtain rfl : r = r' := (Fault.faulted.inj heq).1
  cases hfails with
  | call nnn hsp => exact ⟨⟨nnn, rfl⟩, hsp⟩
  | ret hsp => exact ⟨rfl, hsp⟩
  | ldB x hi => exact ⟨rfl, .inl ⟨rfl, .inl ⟨x, rfl, hi⟩⟩⟩
  | ldMemVx x hi => exact ⟨rfl, .inl ⟨rfl, .inr ⟨x, rfl, hi⟩⟩⟩
  | drw x y n hn hi => exact ⟨rfl, .inr ⟨rfl, .inl ⟨x, y, n, rfl, hn, hi⟩⟩⟩
  | ldVxMem x hi => exact ⟨rfl, .inr ⟨rfl, .inr ⟨x, rfl, hi⟩⟩⟩
  | skp x hk => exact ⟨x, .inl rfl, rfl, hk⟩
  | sknp x hk => exact ⟨x, .inr rfl, rfl, hk⟩

/-- Settles O15: each instruction completes where its check passes (`RunsNormally.exists_next`), and raises where it fails. -/
theorem execCompletesExactlyWhenItsCheckPasses : Obligations.ExecCompletesExactlyWhenItsCheckPasses :=
  fun i s => ⟨⟨fun ⟨_, h⟩ => runsNormally_of_next h, fun h => h.exists_next⟩, exec_ne_refused i s⟩

end Sys2Proof
end

/-! ### The frame of each instruction, and its next PC (10_state.md R20, 40_cycle.md R104) -/

section
namespace Sys2Proof.Machine

theorem ChangesOnly.mono {ps qs : List Part} {s t : State} (h : ChangesOnly ps s t) (hsub : ps ⊆ qs) : ChangesOnly qs s t :=
  fun p hp => h p fun hps => hp (hsub hps)

theorem ChangesOnly.mem_of_not_same {ps : List Part} {s t : State} {p : Part} (h : ChangesOnly ps s t) (hne : ¬p.Same s t) :
    p ∈ ps := by
  by_contra hp
  exact hne (h p hp)

theorem State.changesOnly_self (s : State) (ps : List Part) : ChangesOnly ps s s := fun p _ => by cases p <;> rfl

/-- A change of registers alone, each of which is listed or reads as before. -/
theorem State.changesOnly_withV {s : State} {v : Vector Byte 16} {ps : List Part}
    (h : ∀ x : Reg, .v x ∉ ps → v[x.val] = s.v[x.val]) : ChangesOnly ps s { s with v := v } := by
  intro p hp
  cases p with
  | v x => exact h x hp
  | mem | pc | i | stack | sp | dt | st | pixel | redraw | key | fault | draws => rfl

/-- A change of pixels alone, each of which is listed or reads as before. -/
theorem State.changesOnly_withPixels {s : State} {fb : Framebuffer} {ps : List Part}
    (h : ∀ c r, .pixel c r ∉ ps → getPixel fb c r = getPixel s.fb c r) : ChangesOnly ps s { s with fb := fb } := by
  intro p hp
  cases p with
  | pixel c r => exact h c r hp
  | mem | v | pc | i | stack | sp | dt | st | redraw | key | fault | draws => rfl

theorem State.changesOnly_withSp (s : State) (n : Fin 17) : ChangesOnly [.sp] s { s with sp := n } := by
  intro p hp
  cases p with
  | sp => exact absurd (List.mem_singleton_self _) hp
  | mem | v | i | pc | stack | dt | st | pixel | redraw | key | fault | draws => rfl

theorem State.changesOnly_withStackSlot (s : State) {k : Nat} (hk : k < 16) (w : Word) :
    ChangesOnly [.stack k] s { s with stack := s.stack.set k w } := by
  intro p hp
  cases p with
  | stack j =>
    have hjk : k ≠ j := fun h => hp (h ▸ List.mem_singleton_self _)
    exact Vector.getElem?_set_ne hk hjk
  | mem | v | i | pc | sp | dt | st | pixel | redraw | key | fault | draws => rfl

theorem State.changesOnly_withDt (s : State) (b : Byte) : ChangesOnly [.dt] s { s with dt := b } := by
  intro p hp
  cases p with
  | dt => exact absurd (List.mem_singleton_self _) hp
  | mem | v | i | pc | stack | sp | st | pixel | redraw | key | fault | draws => rfl

theorem State.changesOnly_withSt (s : State) (b : Byte) : ChangesOnly [.st] s { s with st := b } := by
  intro p hp
  cases p with
  | st => exact absurd (List.mem_singleton_self _) hp
  | mem | v | i | pc | stack | sp | dt | pixel | redraw | key | fault | draws => rfl

theorem State.changesOnly_drawByte (s : State) : ChangesOnly [.draws] s s.drawByte.2 := by
  intro p hp
  cases p with
  | draws => exact absurd (List.mem_singleton_self _) hp
  | mem | v | i | pc | stack | sp | dt | st | pixel | redraw | key | fault => rfl

theorem State.changesOnly_setV_seq (s : State) (x : Reg) (b : Byte) : ChangesOnly [.v x, .pc] s (s.setV x b).seq :=
  (s.changesOnly_setV x b).append (State.changesOnly_seq _)

theorem State.changesOnly_setResultAndFlag_seq (s : State) (x : Reg) (b f : Byte) :
    ChangesOnly [.v x, .v VF, .pc] s (s.setResultAndFlag x b f).seq :=
  (s.changesOnly_setV x b).append (State.changesOnly_setV_seq _ VF f)

theorem State.changesOnly_withI_seq (s : State) (a : Word) : ChangesOnly [.i, .pc] s (State.seq { s with i := a }) :=
  (s.changesOnly_withI a).append (State.changesOnly_seq _)

theorem v_mem_regParts {x y : Reg} : Part.v y ∈ regParts x ↔ y ≤ x := by simp [regParts]

/-- A load of `V0..Vx` writes just those (43_index_memory.md R175). -/
theorem State.changesOnly_writeRegs (s : State) {x : Reg} {bs : List Byte} (hlen : bs.length = x.val + 1) :
    ChangesOnly (regParts x) s { s with v := writeRegs s.v 0 bs } := by
  refine State.changesOnly_withV fun y hy => ?_
  have hyx : ¬y.val ≤ x.val := fun h => hy (v_mem_regParts.2 h)
  rw [getElem?_writeRegs _ _ _ _ y.isLt, if_neg (by omega)]

/-- A draw flips just the covered pixels (44_display.md R191). -/
theorem State.changesOnly_drawPixels (s : State) (x y : Reg) (n : BitVec 4) :
    ChangesOnly ((s.spriteCover x y n).map fun p => .pixel p.1 p.2) s
      { s with fb := (drawPixels (s.spriteCover x y n) (s.fb, false)).1 } := by
  refine State.changesOnly_withPixels fun c r hcr => ?_
  have hcover : (c, r) ∉ s.spriteCover x y n := fun h => hcr (List.mem_map.2 ⟨_, h, rfl⟩)
  rw [getPixel_drawPixels (s.nodup_spriteCover x y n), if_neg hcover]

/-- What holds of the state an execute is known to leave holds of the state it answers. -/
theorem of_next {o : Result} {t u : State} {P : State → Prop} (ho : o = .next u) (hu : P u) (h : o = .next t) : P t := by
  rw [ho] at h
  cases h
  exact hu

/-- One case per way of completing: the frames of the single changes compose to the instruction's own. -/
theorem exec_changesOnly {i : Instr} {s t : State} (h : exec i s = .next t) : ChangesOnly (writeSet s i) s t := by
  have hrun := runsNormally_of_next h
  cases i with
  | cls =>
    have hpixels := s.changesOnly_withFb clearFramebuffer
    have hredraw := State.changesOnly_withRedraw { s with fb := clearFramebuffer } true
    exact of_next (exec_cls s) (hpixels.append (hredraw.append (State.changesOnly_seq _))) h
  | ret => exact of_next (exec_ret_of_runs hrun) ((s.changesOnly_withSp _).append (State.changesOnly_jump _ _)) h
  | call nnn =>
    have hslot := s.changesOnly_withStackSlot hrun s.pc
    exact of_next (exec_call_of_runs hrun) (hslot.append ((State.changesOnly_withSp _ _).append (State.changesOnly_jump _ _))) h
  | jp | jpV0 | seImm | sneImm | seReg | sneReg => exact of_next rfl (s.changesOnly_jump _) h
  | skp x => exact of_next (exec_skp_of_runs hrun) (s.changesOnly_jump _) h
  | sknp x => exact of_next (exec_sknp_of_runs hrun) (s.changesOnly_jump _) h
  | ldImm | addImm | ldReg | orReg | andReg | xorReg | ldVxDT => exact of_next rfl (s.changesOnly_setV_seq _ _) h
  | ldVxK x =>
    rcases exists_lowest_key s.key with hup | ⟨k, hk, hlow⟩
    · exact of_next (exec_ldVxK_of_up x hup) (s.changesOnly_self _) h
    · exact of_next (exec_ldVxK_of_down x hk hlow) (s.changesOnly_setV_seq _ _) h
  | addReg | sub | shr | subn | shl => exact of_next rfl (s.changesOnly_setResultAndFlag_seq _ _ _) h
  | rnd x kk =>
    have hchanges := s.changesOnly_drawByte.append (State.changesOnly_setV_seq s.drawByte.2 x (s.drawByte.1 &&& kk))
    exact of_next rfl (hchanges.mono (qs := [.v x, .pc, .draws]) (by simp)) h
  | ldI | addI | ldF => exact of_next rfl (s.changesOnly_withI_seq _) h
  | drw x y n =>
    have hpixels := s.changesOnly_drawPixels x y n
    have hredraw := State.changesOnly_withRedraw { s with fb := (drawPixels (s.spriteCover x y n) (s.fb, false)).1 } true
    refine of_next (exec_drw_of_runs hrun) ?_ h
    exact (hpixels.append (hredraw.append (State.changesOnly_setV_seq _ VF _))).mono
      ((List.Perm.swap ..).append_left _).subset
  | ldDTVx => exact of_next rfl ((s.changesOnly_withDt _).append (State.changesOnly_seq _)) h
  | ldSTVx => exact of_next rfl ((s.changesOnly_withSt _).append (State.changesOnly_seq _)) h
  | ldB x =>
    exact of_next (exec_ldB_of_runs hrun)
      ((s.changesOnly_writeBytes _ (bcdDigits (s.getV x))).append (State.changesOnly_seq _)) h
  | ldMemVx x =>
    have hbytes := s.changesOnly_writeBytes s.i.toNat (s.regsUpTo x)
    rw [s.length_regsUpTo] at hbytes
    exact of_next (exec_ldMemVx_of_runs hrun) (hbytes.append (State.changesOnly_seq _)) h
  | ldVxMem x =>
    exact of_next (exec_ldVxMem_of_runs hrun)
      ((s.changesOnly_writeRegs (Memory.length_readBytes ..)).append (State.changesOnly_seq _)) h

/-- Every meaning ends in a commit of an exact target modulo 2^16: the kinds Seq, Skip and Jump are all one `State.jump`. -/
theorem toNat_pc_of_jump {o : Result} {t u : State} {n : Nat} (ho : o = .next (u.jump n)) (h : o = .next t) :
    t.pc.toNat = n % 0x10000 :=
  of_next (P := fun t => t.pc.toNat = n % 0x10000) ho (BitVec.toNat_ofNat ..) h

theorem toNat_pc_of_skipIf {o : Result} {s t : State} {c : Bool} {P : Prop} [Decidable P] (ho : o = .next (s.skipIf c))
    (hc : c = true ↔ P) (h : o = .next t) : t.pc.toNat = skipTarget s P % 0x10000 := by
  rw [toNat_pc_of_jump ho h, skipTarget, if_congr hc rfl rfl]

/-- One case per kind of the table of 40_cycle.md R104. -/
theorem toNat_exec_pc {i : Instr} {s t : State} (h : exec i s = .next t) : t.pc.toNat = nextPc s i % 0x10000 := by
  have hrun := runsNormally_of_next h
  cases i with
  | jp | jpV0 => exact toNat_pc_of_jump rfl h
  | call nnn => exact toNat_pc_of_jump (exec_call_of_runs hrun) h
  | ret =>
    have hslot : s.sp.val - 1 < 16 := by omega
    rw [nextPc, Vector.getElem?_eq_getElem hslot]
    exact toNat_pc_of_jump (exec_ret_of_runs hrun) h
  | seImm | seReg => exact toNat_pc_of_skipIf rfl beq_iff_eq h
  | sneImm | sneReg => exact toNat_pc_of_skipIf rfl bne_iff_ne h
  | skp x =>
    have hkey := Vector.getElem?_eq_getElem (xs := s.key) (Nat.lt_succ_of_le hrun)
    exact toNat_pc_of_skipIf (exec_skp hkey) (by rw [hkey, Option.some.injEq]) h
  | sknp x =>
    have hkey := Vector.getElem?_eq_getElem (xs := s.key) (Nat.lt_succ_of_le hrun)
    exact toNat_pc_of_skipIf (exec_sknp hkey) (by rw [hkey, Option.some.injEq, Bool.not_eq_true']) h
  | ldVxK x =>
    rw [nextPc]
    rcases exists_lowest_key s.key with hup | ⟨k, hk, hlow⟩
    · rw [if_pos hup]
      exact toNat_pc_of_jump ((exec_ldVxK_of_up x hup).trans (congrArg _ s.stay_eq.symm)) h
    · rw [if_neg fun hup => Bool.false_ne_true ((hup k).symm.trans hk)]
      exact toNat_pc_of_jump (exec_ldVxK_of_down x hk hlow) h
  | drw => exact toNat_pc_of_jump (exec_drw_of_runs hrun) h
  | ldB => exact toNat_pc_of_jump (exec_ldB_of_runs hrun) h
  | ldMemVx => exact toNat_pc_of_jump (exec_ldMemVx_of_runs hrun) h
  | ldVxMem => exact toNat_pc_of_jump (exec_ldVxMem_of_runs hrun) h
  | cls | ldImm | addImm | ldReg | orReg | andReg | xorReg | addReg | sub | shr | subn | shl | ldI | rnd | ldVxDT | ldDTVx
  | ldSTVx | addI | ldF => exact toNat_pc_of_jump rfl h

theorem pcAdvanced_of_exec {i : Instr} {s t : State} {d : Nat} (h : exec i s = .next t) (hd : nextPc s i = s.pc.toNat + d) :
    PcAdvanced d s t := by
  intro hlt
  rw [toNat_exec_pc h, hd, Nat.mod_eq_of_lt hlt]

end Sys2Proof.Machine
end

section
namespace Sys2Proof
open Sys2Proof.Machine

/-- Settles O17: the frame of each instruction, composed of the frames of the changes it makes (`exec_changesOnly`). -/
theorem instructionsChangeOnlyWhatTheyWrite : Obligations.InstructionsChangeOnlyWhatTheyWrite :=
  fun _ _ _ => exec_changesOnly

/-- Settles O21: every meaning ends by committing its exact target modulo 2^16 (`toNat_exec_pc`). -/
theorem nextPcFollowsTheTable : Obligations.NextPcFollowsTheTable :=
  fun _ _ _ => toNat_exec_pc

end Sys2Proof
end

/-! ### Who writes each part of the state (10_state.md R20, R23, R30, R31, R33) -/

section
namespace Sys2Proof.Machine

theorem i_mem_writeSet {s : State} {i : Instr} (h : Part.i ∈ writeSet s i) :
    (∃ n, i = .ldI n) ∨ (∃ x, i = .addI x) ∨ ∃ x, i = .ldF x := by
  cases i with
  | ldI n => exact .inl ⟨n, rfl⟩
  | addI x => exact .inr (.inl ⟨x, rfl⟩)
  | ldF x => exact .inr (.inr ⟨x, rfl⟩)
  | _ => simp [writeSet, allPixels, memParts, regParts] at h

theorem stack_mem_writeSet {s : State} {i : Instr} {k : Nat} (h : Part.stack k ∈ writeSet s i) : ∃ n, i = .call n := by
  cases i with
  | call n => exact ⟨n, rfl⟩
  | _ => simp [writeSet, allPixels, memParts, regParts] at h

theorem sp_mem_writeSet {s : State} {i : Instr} (h : Part.sp ∈ writeSet s i) : (∃ n, i = .call n) ∨ i = .ret := by
  cases i with
  | call n => exact .inl ⟨n, rfl⟩
  | ret => exact .inr rfl
  | _ => simp [writeSet, allPixels, memParts, regParts] at h

theorem pixel_mem_writeSet {s : State} {i : Instr} {c : Fin 64} {r : Fin 32} (h : Part.pixel c r ∈ writeSet s i) :
    i = .cls ∨ ∃ x y n, i = .drw x y n := by
  cases i with
  | cls => exact .inl rfl
  | drw x y n => exact .inr ⟨x, y, n, rfl⟩
  | _ => simp [writeSet, memParts, regParts] at h

theorem redraw_mem_writeSet {s : State} {i : Instr} (h : Part.redraw ∈ writeSet s i) : i = .cls ∨ ∃ x y n, i = .drw x y n := by
  cases i with
  | cls => exact .inl rfl
  | drw x y n => exact .inr ⟨x, y, n, rfl⟩
  | _ => simp [writeSet, memParts, regParts] at h

theorem dt_mem_writeSet {s : State} {i : Instr} (h : Part.dt ∈ writeSet s i) : ∃ x, i = .ldDTVx x := by
  cases i with
  | ldDTVx x => exact ⟨x, rfl⟩
  | _ => simp [writeSet, allPixels, memParts, regParts] at h

theorem st_mem_writeSet {s : State} {i : Instr} (h : Part.st ∈ writeSet s i) : ∃ x, i = .ldSTVx x := by
  cases i with
  | ldSTVx x => exact ⟨x, rfl⟩
  | _ => simp [writeSet, allPixels, memParts, regParts] at h

theorem key_notMem_writeSet (s : State) (i : Instr) (k : Nat) : Part.key k ∉ writeSet s i := by
  cases i <;> simp [writeSet, allPixels, memParts, regParts]

theorem fault_notMem_writeSet (s : State) (i : Instr) : Part.fault ∉ writeSet s i := by
  cases i <;> simp [writeSet, allPixels, memParts, regParts]

/-- VF is written by the six instructions that define a flag, and else only as the named destination (10_state.md R23). -/
theorem vf_mem_writeSet {s : State} {i : Instr} (h : Part.v VF ∈ writeSet s i) :
    (∃ x y, i = .addReg x y ∨ i = .sub x y ∨ i = .shr x y ∨ i = .subn x y ∨ i = .shl x y) ∨ (∃ x y n, i = .drw x y n) ∨
      (∃ kk, i = .ldImm VF kk ∨ i = .addImm VF kk ∨ i = .rnd VF kk) ∨
      (∃ y, i = .ldReg VF y ∨ i = .orReg VF y ∨ i = .andReg VF y ∨ i = .xorReg VF y) ∨
      i = .ldVxDT VF ∨ i = .ldVxK VF ∨ i = .ldVxMem VF := by
  cases i with
  | addReg | sub | shr | subn | shl => simp
  | drw => simp
  | ldImm x | addImm x | rnd x | ldReg x | orReg x | andReg x | xorReg x | ldVxDT x | ldVxK x =>
    obtain rfl : VF = x := by simpa [writeSet] using h
    simp
  | ldVxMem x =>
    have hle : VF ≤ x := by simpa [writeSet, v_mem_regParts] using h
    obtain rfl : x = VF := Fin.last_le_iff.1 hle
    simp
  | _ => simp [writeSet, allPixels, memParts] at h

theorem Framebuffer.ext_getPixel {f g : Framebuffer} (h : ∀ c r, getPixel f c r = getPixel g c r) : f = g :=
  Vector.ext fun c hc => Vector.ext fun r hr => h ⟨c, hc⟩ ⟨r, hr⟩

theorem vector_ext_getElem? {α : Type} {n : Nat} {v w : Vector α n} (h : ∀ k : Nat, v[k]? = w[k]?) : v = w :=
  Vector.ext fun k hk => by simpa [hk] using h k

/-- Memory as data: only the two stores touch it, and each is one write of several bytes in range (20_memory.md R53). -/
theorem mem_of_exec {i : Instr} {s t : State} (h : exec i s = .next t) :
    t.mem = s.mem ∨ ((∃ x, i = .ldB x) ∨ ∃ x, i = .ldMemVx x) ∧
      ∃ bs : List Byte, s.i.toNat + bs.length ≤ memSize ∧ t.mem = s.mem.writeBytes s.i.toNat bs := by
  have hrun := runsNormally_of_next h
  have keeps {u : State} (hu : exec i s = .next u) (hmem : u.mem = s.mem) : t.mem = s.mem :=
    of_next (P := fun t => t.mem = s.mem) hu hmem h
  have stores {u : State} {bs : List Byte} (hu : exec i s = .next u) (hmem : u.mem = s.mem.writeBytes s.i.toNat bs)
      (hlen : s.i.toNat + bs.length ≤ memSize) :
      ∃ bs : List Byte, s.i.toNat + bs.length ≤ memSize ∧ t.mem = s.mem.writeBytes s.i.toNat bs :=
    ⟨bs, hlen, of_next (P := fun t => t.mem = _) hu hmem h⟩
  cases i with
  | ldB x => exact .inr ⟨.inl ⟨x, rfl⟩, stores (exec_ldB_of_runs hrun) rfl (Nat.succ_le_succ hrun)⟩
  | ldMemVx x =>
    have hrange : s.i.toNat + (s.regsUpTo x).length ≤ memSize := by rw [s.length_regsUpTo]; exact Nat.succ_le_succ hrun
    exact .inr ⟨.inr ⟨x, rfl⟩, stores (exec_ldMemVx_of_runs hrun) rfl hrange⟩
  | call => exact .inl (keeps (exec_call_of_runs hrun) rfl)
  | ret => exact .inl (keeps (exec_ret_of_runs hrun) rfl)
  | drw => exact .inl (keeps (exec_drw_of_runs hrun) rfl)
  | ldVxMem => exact .inl (keeps (exec_ldVxMem_of_runs hrun) rfl)
  | skp => exact .inl (keeps (exec_skp_of_runs hrun) rfl)
  | sknp => exact .inl (keeps (exec_sknp_of_runs hrun) rfl)
  | ldVxK x =>
    rcases exists_lowest_key s.key with hup | ⟨k, hk, hlow⟩
    · exact .inl (keeps (exec_ldVxK_of_up x hup) rfl)
    · exact .inl (keeps (exec_ldVxK_of_down x hk hlow) rfl)
  | _ => exact .inl (keeps rfl rfl)

/-- The stack as data: only CALL touches it, pushing its own address (41_control_flow.md R123). -/
theorem stack_of_exec {i : Instr} {s t : State} (h : exec i s = .next t) :
    t.stack = s.stack ∨ ∃ nnn, i = .call nnn ∧ ∃ hsp : s.sp.val < 16, t.stack = s.stack.set s.sp.val s.pc := by
  by_cases hcall : ∃ nnn, i = .call nnn
  · obtain ⟨nnn, rfl⟩ := hcall
    exact .inr ⟨nnn, rfl, runsNormally_of_next h,
      of_next (P := fun t => t.stack = _) (exec_call_of_runs (runsNormally_of_next h)) rfl h⟩
  · exact .inl (vector_ext_getElem? fun k => exec_changesOnly h (.stack k) fun hk => hcall (stack_mem_writeSet hk))

theorem key_of_exec {i : Instr} {s t : State} (h : exec i s = .next t) : t.key = s.key :=
  vector_ext_getElem? fun k => exec_changesOnly h (.key k) (key_notMem_writeSet s i k)

theorem fault_of_exec {i : Instr} {s t : State} (h : exec i s = .next t) : t.fault = s.fault :=
  exec_changesOnly h .fault (fault_notMem_writeSet s i)

/-- The redraw flag is only ever set (10_state.md R30). -/
theorem redraw_of_exec {i : Instr} {s t : State} (h : exec i s = .next t) : t.redraw = s.redraw ∨ t.redraw = true := by
  by_cases hsame : t.redraw = s.redraw
  · exact .inl hsame
  · right
    rcases redraw_mem_writeSet ((exec_changesOnly h).mem_of_not_same (p := .redraw) hsame) with rfl | ⟨x, y, n, rfl⟩
    · exact of_next (P := fun t => t.redraw = true) (exec_cls s) rfl h
    · exact of_next (P := fun t => t.redraw = true) (exec_drw_of_runs (runsNormally_of_next h)) rfl h

theorem flagByte_eq_zero_or_one (c : Bool) : flagByte c = 0 ∨ flagByte c = 1 := by cases c <;> simp [flagByte]

theorem State.getV_VF_setResultAndFlag_seq (s : State) (x : Reg) (b f : Byte) :
    (s.setResultAndFlag x b f).seq.getV VF = f := by
  rw [State.getV_congr (State.seq_v _), State.getV_setResultAndFlag, if_pos rfl]

theorem State.getV_VF_drawn_seq (s : State) (x y : Reg) (n : BitVec 4) :
    (s.drawn x y n).seq.getV VF = collisionFlag (drawPixels (s.spriteCover x y n) (s.fb, false)).2 :=
  (State.getV_congr (State.seq_v _) VF).trans (State.getV_setV_same ..)

end Sys2Proof.Machine
end

section
namespace Sys2Proof
open Sys2Proof.Machine

/-- Settles O18: a part that changed is in the instruction's write set (`exec_changesOnly`), and few instructions list it there;
memory, of which the frame speaks byte by byte, is compared as data by `mem_of_exec`. -/
theorem onlyTheNamedInstructionsWriteEachPart : Obligations.OnlyTheNamedInstructionsWriteEachPart := by
  intro i s t h
  have hframe := exec_changesOnly h
  refine ⟨fun hi => ?_, fun hmem => ?_, fun hstack => ?_, fun hsp => ?_, fun hfb => ?_, fun hredraw => ?_, fun hdt => ?_,
    fun hst => ?_⟩
  · exact i_mem_writeSet (hframe.mem_of_not_same (p := .i) hi)
  · obtain ⟨hwriter, -⟩ := (mem_of_exec h).resolve_left hmem
    exact hwriter
  · obtain ⟨n, hn, -⟩ := (stack_of_exec h).resolve_left hstack
    exact ⟨n, hn⟩
  · exact sp_mem_writeSet (hframe.mem_of_not_same (p := .sp) hsp)
  · by_contra hnone
    exact hfb (Framebuffer.ext_getPixel fun c r => hframe (.pixel c r) fun hcr => hnone (pixel_mem_writeSet hcr))
  · exact redraw_mem_writeSet (hframe.mem_of_not_same (p := .redraw) hredraw)
  · exact dt_mem_writeSet (hframe.mem_of_not_same (p := .dt) hdt)
  · exact st_mem_writeSet (hframe.mem_of_not_same (p := .st) hst)

/-- Settles O20: five instructions end in a result and its flag, the draw in its collision flag, so VF holds a `flagByte`; any
other instruction that changed VF lists it in its write set. -/
theorem onlyFlagInstructionsAndNamedWritesTouchVF : Obligations.OnlyFlagInstructionsAndNamedWritesTouchVF := by
  intro i s t h
  refine ⟨?_, fun hvf => vf_mem_writeSet ((exec_changesOnly h).mem_of_not_same (p := .v VF) hvf)⟩
  have hflag {c : Bool} {u : State} (hu : exec i s = .next u) (hc : u.getV VF = flagByte c) :
      t.getV VF = 0 ∨ t.getV VF = 1 :=
    of_next (P := fun t => t.getV VF = 0 ∨ t.getV VF = 1) hu (hc ▸ flagByte_eq_zero_or_one c) h
  rintro (⟨x, y, rfl | rfl | rfl | rfl | rfl⟩ | ⟨x, y, n, rfl⟩)
  case inr => exact hflag (exec_drw_of_runs (runsNormally_of_next h)) (s.getV_VF_drawn_seq x y n)
  all_goals exact hflag rfl (State.getV_VF_setResultAndFlag_seq ..)

end Sys2Proof
end

/-! ### The step (40_cycle.md R100-R114) -/

section
namespace Sys2Proof.Machine

/-- Executing a decoded word completes or raises: there is no third way. -/
theorem execDecoded_cases (d : Decoded) (s : State) :
    (∃ t ev, execDecoded d s = .next (t, ev)) ∨ ∃ r, execDecoded d s = withEvents [] (raise r s) := by
  cases d with
  | unknown w => exact .inl ⟨_, _, rfl⟩
  | instr i =>
    rcases exec_cases i s with ⟨-, t, ht⟩ | ⟨r, -, hr⟩
    · exact .inl ⟨t, [], by rw [execDecoded, ht, withEvents_next]⟩
    · exact .inr ⟨r, by rw [execDecoded, hr]⟩

theorem fetch_eq_ok {s : State} {w : Word} (h : fetch s = .ok w) : s.pc.toNat ≤ 0xFFE := by
  by_contra hpc
  obtain ⟨r, hr⟩ := fetch_eq_error_of_lt (Nat.lt_of_not_le hpc)
  rw [hr] at h
  cases h

/-- A step that answers a faulted state came from an unfaulted one and committed nothing (40_cycle.md R112). -/
theorem step_faulted {s t : State} {r : FaultReason} (h : step s = .fault (.faulted r t)) :
    s.fault = none ∧ t = { s with fault := some r } := by
  rcases cycle_eq_fault.1 (step_eq_fault.1 h) with ⟨r', -, hno⟩ | ⟨hf, r', -, hraise⟩ | ⟨hf, w, -, hexec⟩
  · cases hno
  · cases raise_eq_fault.1 hraise
    exact ⟨hf, rfl⟩
  · obtain ⟨i, -, hi⟩ := execDecoded_eq_fault.1 hexec
    obtain ⟨r', -, heq⟩ := fails_of_fault hi
    cases heq
    exact ⟨hf, rfl⟩

theorem step_of_faulted {s : State} {r : FaultReason} (h : s.fault = some r) : step s = .fault (.noStep r) :=
  step_eq_fault.2 (cycle_eq_fault.2 (.inl ⟨r, h, rfl⟩))

theorem stepEvents_of_fault {s : State} {f : Fault} (h : step s = .fault f) : stepEvents s = [] := by
  rw [stepEvents, step_eq_fault.1 h]
  rfl

theorem step_of_decode {s : State} {i : Instr} {w : Word} (hf : s.fault = none) (hw : fetch s = .ok w)
    (hi : decode w = .instr i) : step s = dropEvents (finishStep (withEvents [] (exec i s))) := by
  simp only [step, cycle, hf, hw, hi, execDecoded]

theorem State.changesOnly_tick (s : State) : ChangesOnly [.dt, .st] s s.tick := by
  intro p hp
  cases p with
  | dt | st => simp at hp
  | mem | v | i | pc | stack | sp | pixel | redraw | key | fault | draws => simp [Part.Same]

end Sys2Proof.Machine
end

section
namespace Sys2Proof
open Sys2Proof.Machine

/-- Settles O6: the fetch answers the word of the two bytes, and the step is execute and the tick of its one word. -/
theorem stepRunsTheDecodedInstruction : Obligations.StepRunsTheDecodedInstruction := by
  intro s i hf hpc _ hi
  have hw : fetch s = .ok _ := (fetch_eq s).trans (if_pos hpc)
  rw [step_of_decode hf hw hi]
  cases exec i s <;> rfl

/-- Settles O8: there is no word at PC 0xFFF or above, so the step is the fault of the fetch (`fetch_eq`). -/
theorem fetchPastMemoryFaults : Obligations.FetchPastMemoryFaults := by
  intro s hf hpc
  have hfetch := (fetch_eq s).trans (if_neg (Nat.not_le.2 hpc))
  exact step_eq_fault.2 (cycle_eq_fault.2 (.inr (.inl ⟨hf, _, hfetch, rfl⟩)))

/-- Settles O9: executing an unknown word is the kind Seq and a Diag; a fetched PC is low enough for 16 bits to hold PC + 2. -/
theorem unknownWordIsReportedAndSkipped : Obligations.UnknownWordIsReportedAndSkipped := by
  intro s w hf hw hunknown
  have hexec : execDecoded (decode w) s = .next (s.seq, [.diag w s.pc]) := by rw [hunknown]; rfl
  refine ⟨s.seq.tick, step_eq_next.2 ⟨hf, w, _, _, hw, hexec, rfl⟩, ?_, ?_, s.seq.toNat_tick_dt, s.seq.toNat_tick_st, ?_⟩
  · have hpc := fetch_eq_ok hw
    rw [State.tick_pc]
    exact s.toNat_jump_pc (by omega)
  · exact stepEvents_of_cycle (cycle_eq_next.2 ⟨hf, w, _, _, hw, hexec, rfl, rfl⟩)
  · exact s.changesOnly_seq.append s.seq.changesOnly_tick

/-- Settles O10: what a completed step is (`cycle_eq_next`), and what a tick is. -/
theorem completedStepTicksTheTimers : Obligations.CompletedStepTicksTheTimers := by
  intro s t h
  obtain ⟨hf, w, s₁, ev, hw, hexec, rfl⟩ := step_eq_next.1 h
  refine ⟨w, s₁, ev, hw, hexec, fun i hi => ?_, fun hunknown => ?_, s₁.toNat_tick_dt, s₁.toNat_tick_st,
    stepEvents_of_cycle (cycle_eq_next.2 ⟨hf, w, s₁, ev, hw, hexec, rfl, rfl⟩), s₁.changesOnly_tick⟩
  · rw [hi, execDecoded, withEvents_eq_next] at hexec
    exact hexec.2
  · rw [hunknown] at hexec
    cases hexec
    rfl

/-- Settles O11: execute leaves DT to the tick unless it is Fx15, the one instruction that lists DT in its write set. -/
theorem delayTimerCountsDownUnlessWritten : Obligations.DelayTimerCountsDownUnlessWritten := by
  intro s t w h hw hne
  obtain ⟨-, w', s₁, ev, hw', hexec, rfl⟩ := step_eq_next.1 h
  cases hw.symm.trans hw'
  have hdt : s₁.dt = s.dt := by
    rcases execDecoded_eq_next.1 hexec with ⟨i, hi, hnext, -⟩ | ⟨v, -, rfl, -⟩
    · refine exec_changesOnly hnext .dt fun hmem => ?_
      obtain ⟨x, rfl⟩ := dt_mem_writeSet hmem
      exact hne x hi
    · rfl
  rw [State.toNat_tick_dt, hdt]

/-- Settles O12: the events of execute, none or one Diag, then those of the tick, none or one Beep. -/
theorem stepEventsAreDiagThenBeep : Obligations.StepEventsAreDiagThenBeep := by
  intro s
  refine ⟨fun t h => ?_, fun _ => stepEvents_of_fault⟩
  obtain ⟨hf, w, s₁, ev, hw, hexec, rfl⟩ := step_eq_next.1 h
  refine ⟨ev, s₁.tickEvents, stepEvents_of_cycle (cycle_eq_next.2 ⟨hf, w, s₁, ev, hw, hexec, rfl, rfl⟩), ?_, ?_⟩
  · rcases execDecoded_eq_next.1 hexec with ⟨i, -, -, rfl⟩ | ⟨v, hv, -, rfl⟩
    · exact .inl rfl
    · cases eq_of_decode_unknown hv
      exact .inr ⟨w, hw, hv, rfl⟩
  · unfold State.tickEvents
    split_ifs
    · exact .inr rfl
    · exact .inl rfl

/-- Settles O13: a fault is of the fetch or of an execute, and both raise it on the state before (`step_faulted`). -/
theorem faultingStepCommitsNothing : Obligations.FaultingStepCommitsNothing := by
  intro s t r h
  obtain ⟨hf, rfl⟩ := step_faulted h
  exact ⟨rfl, stepEvents_of_fault h, hf, step_of_faulted rfl⟩

/-- Settles O16: a faulted state and a failed fetch stop as faults, and an execute completes or raises (`execDecoded_cases`). -/
theorem stepIsNeverRefused : Obligations.StepIsNeverRefused := by
  intro s f
  unfold step cycle
  split
  · simp [dropEvents]
  · split
    · simp [raise, dropEvents]
    · next w _ =>
      rcases execDecoded_cases (decode w) s with ⟨t, ev, ht⟩ | ⟨r, hr⟩
      · simp [ht, dropEvents]
      · simp [hr, raise, dropEvents]

/-- Settles O19: no write set lists a key or the fault, a listed redraw flag is set, and the tick touches none of the three. -/
theorem stepKeepsKeysAndNeverClearsRedraw : Obligations.StepKeepsKeysAndNeverClearsRedraw := by
  intro s t h
  obtain ⟨hf, w, s₁, ev, -, hexec, rfl⟩ := step_eq_next.1 h
  rw [State.tick_key, State.tick_redraw, State.tick_fault]
  rcases execDecoded_eq_next.1 hexec with ⟨i, -, hnext, -⟩ | ⟨v, -, rfl, -⟩
  · exact ⟨key_of_exec hnext, fun hset => (redraw_of_exec hnext).elim (·.trans hset) id, (fault_of_exec hnext).trans hf⟩
  · exact ⟨rfl, id, hf⟩

end Sys2Proof
end

/-! ### The invariant of every run (20_memory.md R50, 40_cycle.md R104) -/

section
namespace Sys2Proof.Machine

/-- The invariant speaks of memory, stack and PC alone. -/
theorem StateRecord.Inv.of_same {s t : StateRecord} (hs : s.Inv) (hmem : t.mem = s.mem) (hstack : t.stack = s.stack)
    (hpc : t.pc.toNat ≤ 0x10FE) : t.Inv :=
  ⟨hmem ▸ hs.memWf, hstack ▸ hs.stackBound, hpc⟩

theorem State.inv_tick {s : State} (hs : s.Inv) : s.tick.Inv :=
  hs.of_same s.tick_mem s.tick_stack (s.tick_pc.symm ▸ hs.pcBound)

/-- The highest target: `JP V0` of 0xFFF with V0 = 0xFF (40_cycle.md R104). -/
theorem nextPc_le {s : State} (hs : s.Inv) (hpc : s.pc.toNat ≤ 0xFFE) (i : Instr) : nextPc s i ≤ 0x10FE := by
  have hskip (c : Prop) [Decidable c] : skipTarget s c ≤ 0x10FE := by unfold skipTarget; split <;> omega
  cases i with
  | jp nnn | call nnn | jpV0 nnn => simp only [nextPc]; omega
  | ret =>
    have hslot : s.sp.val - 1 < 16 := by omega
    have hret := hs.stackBound ⟨s.sp.val - 1, hslot⟩
    rw [nextPc, Vector.getElem?_eq_getElem hslot, Option.getD_some]
    exact Nat.le_trans (Nat.add_le_add_right hret 2) (by decide)
  | seImm | sneImm | seReg | sneReg | skp | sknp => exact hskip _
  | ldVxK => simp only [nextPc]; split <;> omega
  | _ => simp only [nextPc]; omega

theorem inv_of_exec {i : Instr} {s t : State} (hs : s.Inv) (hpc : s.pc.toNat ≤ 0xFFE) (h : exec i s = .next t) : t.Inv where
  memWf := by
    rcases mem_of_exec h with hmem | ⟨-, bs, hlen, hmem⟩ <;> rw [hmem]
    · exact hs.memWf
    · exact Memory.wf_writeBytes hs.memWf hlen
  stackBound k := by
    rcases stack_of_exec h with hstack | ⟨-, -, hsp, hstack⟩ <;> simp only [hstack]
    · exact hs.stackBound k
    · rw [Vector.getElem_set]
      split
      · exact hpc
      · exact hs.stackBound k
  pcBound := by
    rw [toNat_exec_pc h]
    exact Nat.le_trans (Nat.mod_le _ _) (nextPc_le hs hpc i)

theorem inv_of_execDecoded {d : Decoded} {s t : State} {ev : List Event} (hs : s.Inv) (hpc : s.pc.toNat ≤ 0xFFE)
    (h : execDecoded d s = .next (t, ev)) : t.Inv := by
  rcases execDecoded_eq_next.1 h with ⟨i, -, hnext, -⟩ | ⟨w, -, rfl, -⟩
  · exact inv_of_exec hs hpc hnext
  · exact hs.of_same rfl rfl (by rw [State.seq_pc, BitVec.toNat_ofNat]; omega)

end Sys2Proof.Machine
end

section
namespace Sys2Proof
open Sys2Proof.Machine

/-- Settles O22: a step is one execute at a PC that can be fetched, which keeps the invariant (`inv_of_execDecoded`), and a tick,
which touches none of its parts. -/
theorem stepKeepsTheInvariant : Obligations.StepKeepsTheInvariant := by
  intro s t hs h
  obtain ⟨-, w, s₁, ev, hw, hexec, rfl⟩ := step_eq_next.1 h
  exact State.inv_tick (inv_of_execDecoded hs (fetch_eq_ok hw) hexec)

end Sys2Proof
end

/-! ### The step of the record, with its input byte (40_cycle.md R100, 42_alu.md R155) -/

section
namespace Sys2Proof.Machine

theorem fetch_congr {s t : State} (h : s.toStateRecord = t.toStateRecord) : fetch s = fetch t := by
  rw [fetch, fetch, h]

/-- An execute with an input byte completes or raises, as one without does. -/
theorem execInput_cases (r : Byte) (d : Decoded) (s : State) :
    (∃ t ev, execInput r d s = .next (t, ev)) ∨ ∃ reason, execInput r d s = withEvents [] (raise reason s) := by
  by_cases hrnd : ∃ x kk, d = .instr (.rnd x kk)
  · obtain ⟨x, kk, rfl⟩ := hrnd
    exact .inl ⟨_, _, execInput_rnd r x kk s⟩
  · rw [execInput_of_ne_rnd fun x kk h => hrnd ⟨x, kk, h⟩]
    exact execDecoded_cases d s

theorem inv_of_execInput {r : Byte} {d : Decoded} {s t : State} {ev : List Event} (hs : s.Inv) (hpc : s.pc.toNat ≤ 0xFFE)
    (h : execInput r d s = .next (t, ev)) : t.Inv := by
  by_cases hrnd : ∃ x kk, d = .instr (.rnd x kk)
  · obtain ⟨x, kk, rfl⟩ := hrnd
    cases (execInput_rnd r x kk s).symm.trans h
    exact hs.of_same rfl rfl (by rw [State.seq_pc, State.setV_pc, BitVec.toNat_ofNat]; omega)
  · rw [execInput_of_ne_rnd fun x kk h => hrnd ⟨x, kk, h⟩] at h
    exact inv_of_execDecoded hs hpc h

/-- Everything a step of an unfaulted record answers: a fault of the record before, or an execute of the word fetched and a tick. -/
theorem StateRecord.step_cases {s : StateRecord} (hf : s.fault = none) (r : Byte) :
    (∃ reason, s.step r = some (.faulted reason { s with fault := some reason })) ∨
      ∃ w u ev, fetch s.asState = .ok w ∧ execInput r (decode w) s.asState = .next (u, ev) ∧
        s.step r = some (.completed u.tick.toStateRecord (ev ++ u.tickEvents)) := by
  have hstep := s.step_eq r
  rw [if_pos hf] at hstep
  split_ifs at hstep with hpc
  · rcases execInput_cases r (decode (wordOfBytes (s.mem.read s.pc.toNat) (s.mem.read (s.pc.toNat + 1)))) s.asState with
      ⟨u, ev, hu⟩ | ⟨reason, hr⟩
    · refine .inr ⟨_, u, ev, (fetch_eq _).trans (if_pos hpc), hu, ?_⟩
      rw [hstep, hu, finishStep_next, outcomeOf_next]
    · refine .inl ⟨reason, ?_⟩
      rw [hstep, hr]
      rfl
  · exact .inl ⟨_, hstep⟩

theorem StateRecord.step_of_faulted {s : StateRecord} (hf : s.fault ≠ none) (r : Byte) : s.step r = none := by
  rw [StateRecord.step_eq, if_neg hf]

theorem StateRecord.fault_eq_none_of_step {s : StateRecord} {r : Byte} {o : StepOutcome} (h : s.step r = some o) :
    s.fault = none := by
  by_contra hf
  rw [StateRecord.step_of_faulted hf] at h
  cases h

/-- The record a step answers, completed or faulted. -/
def StepOutcome.record : StepOutcome → StateRecord
  | .completed t _ => t
  | .faulted _ t => t

theorem StateRecord.inv_of_step {s : StateRecord} {r : Byte} {o : StepOutcome} (hs : s.Inv) (h : s.step r = some o) :
    o.record.Inv := by
  rcases StateRecord.step_cases (StateRecord.fault_eq_none_of_step h) r with ⟨reason, hstep⟩ | ⟨w, u, ev, hw, hexec, hstep⟩
  · cases hstep.symm.trans h
    exact hs.of_same rfl rfl hs.pcBound
  · cases hstep.symm.trans h
    exact State.inv_tick (inv_of_execInput (s := s.asState) hs (fetch_eq_ok hw) hexec)

/-! ### The host's transactions (60_exceptions.md R250, 70_reset_and_hazards.md R264) -/

theorem Launch.stepLoaded_eq_some {s : StateRecord} {r : Byte} {p : Reply × Launch} :
    Launch.stepLoaded s r = some p ↔
      (∃ t ev, s.step r = some (.completed t ev) ∧ p = (.completed ev, .loaded t)) ∨
      (∃ reason t, s.step r = some (.faulted reason t) ∧ p = (.faulted reason, .loaded t)) := by
  unfold Launch.stepLoaded
  split <;> simp [*, eq_comm]

theorem StateRecord.load_of_oversized {s : StateRecord} {bytes : List Byte} (h : maxProgram < bytes.length) :
    s.load bytes = .error bytes.length := if_neg (Nat.not_le.2 h)

theorem Launch.loadInitialized_of_fits {s : StateRecord} {bytes : List Byte} (h : bytes.length ≤ maxProgram) :
    Launch.loadInitialized s bytes = some (.ok, .loaded { s with mem := s.mem.writeBytes programBase bytes }) := by
  rw [Launch.loadInitialized, StateRecord.load_of_fits h]

theorem Launch.loadInitialized_of_oversized {s : StateRecord} {bytes : List Byte} (h : maxProgram < bytes.length) :
    Launch.loadInitialized s bytes = some (.loadTooLarge bytes.length, .loadFailed s) := by
  rw [Launch.loadInitialized, StateRecord.load_of_oversized h]

theorem Launch.anyTime_of_state {l : Launch} {s : StateRecord} (h : l.state? = some s) (f : StateRecord → Reply × StateRecord) :
    l.anyTime f = some ((f s).1, l.withState (f s).2) := by
  rw [Launch.anyTime, h, Option.map_some]

theorem Launch.state?_withState {l : Launch} {s : StateRecord} (h : l.state? = some s) (t : StateRecord) :
    (l.withState t).state? = some t := by
  cases l with
  | fresh => cases h
  | initialized | loaded | loadFailed => rfl

theorem StateRecord.inv_initializeWith (glyphs : Vector Byte 80) : (StateRecord.initializeWith glyphs).Inv where
  memWf := Memory.wf_writeBytes rfl (by rw [Vector.length_toList]; decide)
  stackBound k := by simp [StateRecord.initializeWith, StateRecord.reset]
  pcBound := (by decide : (0x200 : Word).toNat ≤ 0x10FE)

theorem StateRecord.inv_load {s : StateRecord} {bytes : List Byte} (hs : s.Inv) (h : bytes.length ≤ maxProgram) :
    StateRecord.Inv { s with mem := s.mem.writeBytes programBase bytes } where
  memWf := Memory.wf_writeBytes hs.memWf (Nat.add_le_add_left h programBase)
  stackBound := hs.stackBound
  pcBound := hs.pcBound

/-- A transaction allowed at any time keeps what its update of the state keeps. -/
theorem Launch.inv_anyTime {l l' : Launch} {f : StateRecord → Reply × StateRecord} {reply : Reply}
    (hl : ∀ s, l.state? = some s → s.Inv) (hf : ∀ s : StateRecord, s.Inv → (f s).2.Inv)
    (h : l.anyTime f = some (reply, l')) {t : StateRecord} (ht : l'.state? = some t) : t.Inv := by
  cases hstate : l.state? with
  | none => rw [Launch.anyTime, hstate] at h; cases h
  | some s =>
    cases (Launch.anyTime_of_state hstate f).symm.trans h
    cases (Launch.state?_withState hstate _).symm.trans ht
    exact hf s (hl s hstate)

theorem Launch.inv_stepLoaded {s : StateRecord} {r : Byte} {reply : Reply} {l' : Launch} (hs : s.Inv)
    (h : Launch.stepLoaded s r = some (reply, l')) {t : StateRecord} (ht : l'.state? = some t) : t.Inv := by
  rcases Launch.stepLoaded_eq_some.1 h with ⟨u, ev, hstep, hp⟩ | ⟨reason, u, hstep, hp⟩ <;>
  · cases hp
    cases ht
    exact StateRecord.inv_of_step hs hstep

theorem Launch.inv_loadInitialized {s : StateRecord} {bytes : List Byte} {reply : Reply} {l' : Launch} (hs : s.Inv)
    (h : Launch.loadInitialized s bytes = some (reply, l')) {t : StateRecord} (ht : l'.state? = some t) : t.Inv := by
  rcases le_or_gt bytes.length maxProgram with hfits | hover
  · cases (Launch.loadInitialized_of_fits hfits).symm.trans h
    cases ht
    exact StateRecord.inv_load hs hfits
  · cases (Launch.loadInitialized_of_oversized hover).symm.trans h
    cases ht
    exact hs

end Sys2Proof.Machine
end

section
namespace Sys2Proof
open Sys2Proof.Machine

/-- Settles O59: one case per transaction; the three moves of the protocol keep the invariant each by its own lemma, the other
four by `Launch.inv_anyTime`. -/
theorem transactionsKeepTheInvariant : Obligations.TransactionsKeepTheInvariant := by
  intro l l' tr reply hl h t ht
  cases tr with
  | initializeWith glyphs =>
    cases l with
    | fresh => cases h; cases ht; exact StateRecord.inv_initializeWith glyphs
    | initialized | loaded | loadFailed => cases h
  | load bytes =>
    cases l with
    | initialized s => exact Launch.inv_loadInitialized (hl s rfl) h ht
    | fresh | loaded | loadFailed => cases h
  | step r =>
    cases l with
    | loaded s => exact Launch.inv_stepLoaded (hl s rfl) h ht
    | fresh | initialized | loadFailed => cases h
  | setKeys | clearRedraw => exact Launch.inv_anyTime hl (fun s hs => hs.of_same rfl rfl hs.pcBound) h ht
  | readFramebuffer | readRedraw => exact Launch.inv_anyTime hl (fun _ => id) h ht

/-- Settles O23: nothing is listed after reset, the 80 glyph bytes are one write in range, and the rest is computed. -/
theorem resetMeetsTheInvariant : Obligations.ResetMeetsTheInvariant :=
  ⟨⟨rfl, by decide, by decide⟩, StateRecord.inv_initializeWith⟩

/-- Settles O24: a fresh launch has no state, and every transaction keeps the invariant (O59). -/
theorem everyReachedStateMeetsTheInvariant : Obligations.EveryReachedStateMeetsTheInvariant := by
  intro l s hreached
  induction hreached generalizing s with
  | fresh => intro h; cases h
  | move tr _ htr ih => exact transactionsKeepTheInvariant _ _ tr _ ih htr s

end Sys2Proof
end

/-! ### The canonical form of memory, and the reset values (20_memory.md R50, 70_reset_and_hazards.md R260) -/

section
namespace Sys2Proof.Machine

theorem Memory.wfFrom_cons_iff {lo a : Nat} {b : Byte} {m : Memory} :
    Memory.wfFrom lo ((a, b) :: m) = true ↔ lo ≤ a ∧ a < memSize ∧ b ≠ unlistedByte a ∧ Memory.wfFrom (a + 1) m = true := by
  simp only [Memory.wfFrom, Bool.and_eq_true, decide_eq_true_eq, and_assoc]

/-- Below its lowest possible address a canonical memory lists nothing. -/
theorem Memory.read_below {m : Memory} {lo a : Nat} (h : Memory.wfFrom lo m = true) (ha : a < lo) :
    m.read a = unlistedByte a := by
  induction m generalizing lo with
  | nil => rfl
  | cons cell m ih =>
    obtain ⟨a', b⟩ := cell
    obtain ⟨hlo, -, -, htail⟩ := Memory.wfFrom_cons_iff.1 h
    rw [Memory.read_cons, if_neg (by omega), ih htail (by omega)]

/-- A cell that a canonical memory lists first is one that no memory of later cells reads like. -/
theorem Memory.read_head_ne {lo a : Nat} {b : Byte} {m n : Memory} (hm : Memory.wfFrom lo ((a, b) :: m) = true)
    (hn : Memory.wfFrom (a + 1) n = true) : Memory.read ((a, b) :: m) a ≠ n.read a := by
  obtain ⟨-, -, hb, -⟩ := Memory.wfFrom_cons_iff.1 hm
  rw [Memory.read_cons, if_pos rfl, Memory.read_below hn (Nat.lt_succ_self a)]
  exact hb

/-- Canonical memories are determined by what they read: the first cells must agree, and then the rest reads alike. -/
theorem Memory.ext_read {m n : Memory} {lo : Nat} (hm : Memory.wfFrom lo m = true) (hn : Memory.wfFrom lo n = true)
    (h : ∀ a, m.read a = n.read a) : m = n := by
  induction m generalizing n lo with
  | nil =>
    cases n with
    | nil => rfl
    | cons cell n => exact absurd (h cell.1).symm (Memory.read_head_ne hn rfl)
  | cons cell m ih =>
    obtain ⟨a, b⟩ := cell
    cases n with
    | nil => exact absurd (h a) (Memory.read_head_ne hm rfl)
    | cons cell' n =>
      obtain ⟨a', b'⟩ := cell'
      obtain ⟨-, hsize, hb, hmtail⟩ := Memory.wfFrom_cons_iff.1 hm
      obtain ⟨-, hsize', hb', hntail⟩ := Memory.wfFrom_cons_iff.1 hn
      rcases Nat.lt_trichotomy a a' with hlt | rfl | hgt
      · exact absurd (h a) (Memory.read_head_ne hm (Memory.wfFrom_cons_iff.2 ⟨hlt, hsize', hb', hntail⟩))
      · obtain rfl : b = b' := by simpa using h a
        refine congrArg _ (ih hmtail hntail fun x => ?_)
        by_cases hx : x = a
        · rw [hx, Memory.read_below hmtail (Nat.lt_succ_self a), Memory.read_below hntail (Nat.lt_succ_self a)]
        · simpa [hx] using h x
      · exact absurd (h a').symm (Memory.read_head_ne hn (Memory.wfFrom_cons_iff.2 ⟨hgt, hsize, hb, hmtail⟩))

/-- Above the glyphs an unlisted byte is 0 (20_memory.md R59). -/
theorem unlistedByte_of_le {a : Nat} (h : 80 ≤ a) : unlistedByte a = 0 := List.getD_eq_default _ _ h

theorem StateRecord.mem_initializeWith (glyphs : Vector Byte 80) :
    (StateRecord.initializeWith glyphs).mem = Memory.writeBytes [] 0 glyphs.toList := rfl

theorem StateRecord.read_initializeWith_glyph (glyphs : Vector Byte 80) {a : Nat} (h : a < 80) :
    (StateRecord.initializeWith glyphs).mem.read a = glyphs[a] := by
  have hlen : a < glyphs.toList.length := by rwa [Vector.length_toList]
  have hread := Memory.read_writeBytes_inside [] 0 hlen
  rwa [Nat.zero_add, Vector.getElem_toList] at hread

theorem StateRecord.read_initializeWith_above (glyphs : Vector Byte 80) {a : Nat} (h : 80 ≤ a) :
    (StateRecord.initializeWith glyphs).mem.read a = unlistedByte a := by
  rw [StateRecord.mem_initializeWith, Memory.read_writeBytes_outside (by rw [Vector.length_toList]; omega), Memory.read_nil]

/-- With the default glyphs memory reads as one that lists nothing, so it is that one. -/
theorem StateRecord.initializeWith_default {glyphs : Vector Byte 80} (h : glyphs.toList = defaultGlyphs) :
    StateRecord.initializeWith glyphs = StateRecord.reset := by
  have hmem : (StateRecord.initializeWith glyphs).mem = [] := by
    refine Memory.ext_read (StateRecord.inv_initializeWith glyphs).memWf rfl fun a => ?_
    by_cases ha : a < 80
    · rw [StateRecord.read_initializeWith_glyph glyphs ha, Memory.read_nil, unlistedByte, ← h, List.getD_eq_getElem]
      · exact (Vector.getElem_toList _).symm
      · rwa [Vector.length_toList]
    · exact StateRecord.read_initializeWith_above glyphs (Nat.le_of_not_lt ha)
  calc StateRecord.initializeWith glyphs
      = { StateRecord.reset with mem := (StateRecord.initializeWith glyphs).mem } := rfl
    _ = StateRecord.reset := by rw [hmem]; rfl

end Sys2Proof.Machine
end

section
namespace Sys2Proof
open Sys2Proof.Machine

/-- Settles O25: by induction on the cells (`Memory.ext_read`). -/
theorem canonicalMemoriesThatReadAlikeAreEqual : Obligations.CanonicalMemoriesThatReadAlikeAreEqual :=
  fun _ _ => Memory.ext_read

/-- Settles O26: memory is the 80 glyph bytes written over one that lists nothing; every other element is as after reset. -/
theorem initializeLeavesTheResetValues : Obligations.InitializeLeavesTheResetValues := by
  intro glyphs
  refine ⟨fun _ => StateRecord.read_initializeWith_glyph glyphs, fun a ha _ => ?_, fun x => ?_, fun k hk => ?_, rfl, rfl, rfl,
    rfl, rfl, getPixel_clear, rfl, fun k hk => ?_, rfl, fun h => ⟨StateRecord.initializeWith_default h, rfl⟩⟩
  · rw [StateRecord.read_initializeWith_above glyphs ha, unlistedByte_of_le ha]
  · exact Vector.getElem_replicate ..
  · exact Vector.getElem?_replicate.trans (if_pos hk)
  · exact Vector.getElem?_replicate.trans (if_pos hk)

end Sys2Proof
end

/-! ### The step of the state and the step of its record (40_cycle.md R100) -/

section
namespace Sys2Proof.Machine

/-- The state with another place in the sequence of draws. -/
def State.withDraws (s : State) (d : Nat) : State := { s with draws := d }

/-- The same answer with another place in the sequence of draws. -/
def Result.withDraws (d : Nat) : Result → Result
  | .next t => .next (t.withDraws d)
  | .fault (.faulted r t) => .fault (.faulted r (t.withDraws d))
  | .fault (.noStep r) => .fault (.noStep r)
  | .refused r => .refused r

theorem raise_withDraws (r : FaultReason) (s : State) (d : Nat) :
    raise r (s.withDraws d) = Result.withDraws d (raise r s) := rfl

theorem Fails.withDraws {s : State} {i : Instr} {r : FaultReason} (h : Fails s i r) (d : Nat) : Fails (s.withDraws d) i r := by
  cases h with
  | call nnn h => exact .call nnn h
  | ret h => exact .ret h
  | ldB x h => exact .ldB (s := s.withDraws d) x h
  | ldMemVx x h => exact .ldMemVx (s := s.withDraws d) x h
  | ldVxMem x h => exact .ldVxMem (s := s.withDraws d) x h
  | drw x y n hn h => exact .drw (s := s.withDraws d) x y n hn h
  | skp x h => exact .skp (s := s.withDraws d) x h
  | sknp x h => exact .sknp (s := s.withDraws d) x h

/-- No check and no meaning but that of Cxkk looks at the place in the sequence of draws. -/
theorem exec_withDraws {i : Instr} (hi : ∀ x kk, i ≠ .rnd x kk) (s : State) (d : Nat) :
    exec i (s.withDraws d) = Result.withDraws d (exec i s) := by
  rcases runsNormally_or_fails i s with hrun | ⟨r, hfails⟩
  case inr => rw [hfails.exec_eq, (hfails.withDraws d).exec_eq, raise_withDraws]
  have both {u : State} (hu : exec i s = .next u) (hu' : exec i (s.withDraws d) = .next (u.withDraws d)) :
      exec i (s.withDraws d) = Result.withDraws d (exec i s) := by rw [hu, hu', Result.withDraws]
  cases i with
  | rnd x kk => exact absurd rfl (hi x kk)
  | call => exact both (exec_call_of_runs hrun) (exec_call_of_runs (s := s.withDraws d) hrun)
  | ret => exact both (exec_ret_of_runs hrun) (exec_ret_of_runs (s := s.withDraws d) hrun)
  | drw => exact both (exec_drw_of_runs hrun) (exec_drw_of_runs (s := s.withDraws d) hrun)
  | ldB => exact both (exec_ldB_of_runs hrun) (exec_ldB_of_runs (s := s.withDraws d) hrun)
  | ldMemVx => exact both (exec_ldMemVx_of_runs hrun) (exec_ldMemVx_of_runs (s := s.withDraws d) hrun)
  | ldVxMem => exact both (exec_ldVxMem_of_runs hrun) (exec_ldVxMem_of_runs (s := s.withDraws d) hrun)
  | skp => exact both (exec_skp_of_runs hrun) (exec_skp_of_runs (s := s.withDraws d) hrun)
  | sknp => exact both (exec_sknp_of_runs hrun) (exec_sknp_of_runs (s := s.withDraws d) hrun)
  | ldVxK x =>
    rcases exists_lowest_key s.key with hup | ⟨k, hk, hlow⟩
    · exact both (exec_ldVxK_of_up x hup) (exec_ldVxK_of_up x hup)
    · exact both (exec_ldVxK_of_down x hk hlow) (exec_ldVxK_of_down x hk hlow)
  | _ => rfl

/-- What the record of a completed step is does not depend on the place in the sequence of draws. -/
theorem outcomeOf_finishStep_congr {s t : State} (h : s.toStateRecord = t.toStateRecord) (ev : List Event) :
    outcomeOf (finishStep (.next (s, ev))) = outcomeOf (finishStep (.next (t, ev))) := by
  rw [finishStep_next, finishStep_next, outcomeOf_next, outcomeOf_next, State.toStateRecord_tick_congr h,
    State.tickEvents_congr h]

theorem outcomeOf_finishStep_withDraws (ev : List Event) (o : Result) (d : Nat) :
    outcomeOf (finishStep (withEvents ev (o.withDraws d))) = outcomeOf (finishStep (withEvents ev o)) := by
  rcases o with t | ⟨r, t⟩ | r
  · exact outcomeOf_finishStep_congr (s := t.withDraws d) (t := t) rfl ev
  all_goals rfl

/-- An execute of the state is, on the records, an execute with the byte that the state would draw. -/
theorem outcomeOf_execInput_draw (d : Decoded) (s : State) :
    outcomeOf (finishStep (execInput (Config.rand s.draws) d s.toStateRecord.asState)) =
      outcomeOf (finishStep (execDecoded d s)) := by
  by_cases hrnd : ∃ x kk, d = .instr (.rnd x kk)
  · obtain ⟨x, kk, rfl⟩ := hrnd
    exact outcomeOf_finishStep_congr
      (s := (s.toStateRecord.asState.setV x (Config.rand s.draws &&& kk)).seq)
      (t := (s.drawByte.2.setV x (s.drawByte.1 &&& kk)).seq) rfl []
  · rw [execInput_of_ne_rnd fun x kk h => hrnd ⟨x, kk, h⟩]
    cases d with
    | unknown w => exact outcomeOf_finishStep_congr (s := s.toStateRecord.asState.seq) (t := s.seq) rfl [.diag w s.pc]
    | instr i =>
      have hi : ∀ x kk, i ≠ .rnd x kk := fun x kk h => hrnd ⟨x, kk, h ▸ rfl⟩
      have hexec : exec i s.toStateRecord.asState = Result.withDraws 0 (exec i s) := exec_withDraws hi s 0
      rw [execDecoded, execDecoded, hexec, outcomeOf_finishStep_withDraws]

theorem StateRecord.step_of_fetch_ok {s : StateRecord} {r : Byte} {w : Word} (hf : s.fault = none)
    (hw : fetch s.asState = .ok w) : s.step r = outcomeOf (finishStep (execInput r (decode w) s.asState)) := by
  simp only [StateRecord.step, hf, hw]

theorem StateRecord.step_of_fetch_error {s : StateRecord} {r : Byte} {reason : FaultReason} (hf : s.fault = none)
    (hw : fetch s.asState = .error reason) : s.step r = some (.faulted reason { s with fault := some reason }) := by
  simp only [StateRecord.step, hf, hw]

/-- The step of the state is, on the records, the spec's step with the byte that the state would draw. -/
theorem outcomeOf_cycle (s : State) : outcomeOf (cycle s) = s.toStateRecord.step (Config.rand s.draws) := by
  have hfetch : fetch s.toStateRecord.asState = fetch s := fetch_congr rfl
  unfold cycle
  split
  · next hf => rw [StateRecord.step_of_faulted (by rw [hf]; simp), outcomeOf_noStep]
  · next hf =>
    split
    · next hw => rw [StateRecord.step_of_fetch_error hf (hfetch.trans hw)]; rfl
    · next hw => rw [StateRecord.step_of_fetch_ok hf (hfetch.trans hw), outcomeOf_execInput_draw]

end Sys2Proof.Machine
end

section
namespace Sys2Proof
open Sys2Proof.Machine

/-- Settles O60: the two steps fetch the same word and execute it alike, but for Cxkk, which takes its byte from the input in the
one and from the draw in the other (`outcomeOf_execInput_draw`). -/
theorem stepIsTheRecordsStepWithADrawnByte : Obligations.StepIsTheRecordsStepWithADrawnByte := by
  refine ⟨outcomeOf_cycle, fun s r w x kk hf hw hrnd => ?_, fun s r r' w hw hne => ?_⟩
  · have hstep : s.toStateRecord.step r = _ := StateRecord.step_of_fetch_ok hf ((fetch_congr rfl).trans hw)
    rw [hrnd, execInput_rnd, finishStep_next, outcomeOf_next] at hstep
    refine ⟨_, _, hstep, ?_⟩
    simp only [State.tick_v, State.seq_v, State.setV_v, Vector.getElem_set_self]
  · by_cases hf : s.fault = none
    · have hw' : fetch s.toStateRecord.asState = .ok w := (fetch_congr rfl).trans hw
      rw [StateRecord.step_of_fetch_ok hf hw', StateRecord.step_of_fetch_ok hf hw', execInput_of_ne_rnd hne,
        execInput_of_ne_rnd hne]
    · rw [StateRecord.step_of_faulted hf, StateRecord.step_of_faulted hf]

end Sys2Proof
end

/-! ### The launch protocol, and the transactions allowed at any time (60_exceptions.md R250, 70_reset_and_hazards.md R264) -/

section
namespace Sys2Proof.Machine

theorem StateRecord.changesOnly_setKeys (s : StateRecord) (keys : Keypad) :
    ChangesOnly ((List.range 16).map .key) s.asState (s.setKeys keys).asState := by
  intro p hp
  cases p with
  | key k =>
    have hk : 16 ≤ k := Nat.le_of_not_lt fun hlt => hp (List.mem_map.2 ⟨k, List.mem_range.2 hlt, rfl⟩)
    exact (Vector.getElem?_eq_none hk).trans (Vector.getElem?_eq_none hk).symm
  | mem | v | i | pc | stack | sp | dt | st | pixel | redraw | fault | draws => rfl

theorem Launch.withState_self {l : Launch} {s : StateRecord} (h : l.state? = some s) : l.withState s = l := by
  cases l <;> cases h <;> rfl

end Sys2Proof.Machine
end

section
namespace Sys2Proof
open Sys2Proof.Machine

/-- Settles O28: the length check fails before anything is written, and the protocol has no step after it. -/
theorem oversizedLoadFails : Obligations.OversizedLoadFails :=
  fun _ _ hover => ⟨Launch.loadInitialized_of_oversized hover, fun _ => rfl⟩

/-- Settles O29: where each of the three has a move is read off `Launch.transact` place by place; what a step replies is what the
step of the record answers (`StateRecord.step_cases`), with the events of the state's step where the draw is its own (O60). -/
theorem launchProtocolHasNoOtherMoves : Obligations.LaunchProtocolHasNoOtherMoves := by
  refine ⟨fun _ => rfl, fun l glyphs hl => ?_, fun tr p h => ?_, fun s bytes hfits => ?_, fun l bytes p h => ?_,
    fun s r hf => ?_, fun s t h => ?_, fun l r p h => ?_⟩
  · cases l with
    | fresh => exact absurd rfl hl
    | initialized | loaded | loadFailed => rfl
  · cases tr with
    | initializeWith glyphs => exact ⟨glyphs, rfl⟩
    | load | step | setKeys | readFramebuffer | readRedraw | clearRedraw => cases h
  · exact ⟨_, StateRecord.load_of_fits hfits, Launch.loadInitialized_of_fits hfits⟩
  · cases l with
    | initialized s => exact ⟨s, rfl⟩
    | fresh | loaded | loadFailed => cases h
  · rcases StateRecord.step_cases hf r with ⟨reason, hstep⟩ | ⟨w, u, ev, -, -, hstep⟩
    · exact .inr ⟨reason, _, hstep, rfl, Launch.stepLoaded_eq_some.2 (.inr ⟨reason, _, hstep, rfl⟩)⟩
    · exact .inl ⟨_, _, hstep, Launch.stepLoaded_eq_some.2 (.inl ⟨_, _, hstep, rfl⟩)⟩
  · obtain ⟨ev, hcycle⟩ := dropEvents_eq_next.1 h
    have hstep := outcomeOf_cycle s
    rw [hcycle, outcomeOf_next] at hstep
    rw [stepEvents_of_cycle hcycle]
    exact Launch.stepLoaded_eq_some.2 (.inl ⟨_, _, hstep.symm, rfl⟩)
  · cases l with
    | loaded s =>
      rcases Launch.stepLoaded_eq_some.1 h with ⟨t, ev, hstep, -⟩ | ⟨reason, t, hstep, -⟩ <;>
        exact ⟨s, rfl, StateRecord.fault_eq_none_of_step hstep⟩
    | fresh | initialized | loadFailed => cases h

/-- Settles O30: each of the four is one update of the state at the same place of the protocol (`Launch.anyTime_of_state`). -/
theorem hostTransactionsTouchOnlyTheirPart : Obligations.HostTransactionsTouchOnlyTheirPart := by
  intro l s hl
  refine ⟨fun keys => ⟨_, Launch.anyTime_of_state hl _, rfl, s.changesOnly_setKeys keys⟩,
    ⟨_, Launch.anyTime_of_state hl _, rfl, s.asState.changesOnly_withRedraw false⟩, ?_, ?_, fun t => ?_⟩
  · exact (Launch.anyTime_of_state hl _).trans (by rw [Launch.withState_self hl]; rfl)
  · exact (Launch.anyTime_of_state hl _).trans (by rw [Launch.withState_self hl]; rfl)
  · refine ⟨Launch.state?_withState hl t, ?_⟩
    cases l with
    | fresh => cases hl
    | initialized | loaded | loadFailed => simp [Launch.withState]

end Sys2Proof
end

/-! ### Calls, returns and the computed jump (41_control_flow.md R121, R123, R128) -/

section
namespace Sys2Proof.Machine

/-- What every completing instruction of a known distance leaves besides its result: PC, and its frame. -/
theorem exec_advances_and_frames {i : Instr} {s t : State} {d : Nat} (h : exec i s = .next t)
    (hd : nextPc s i = s.pc.toNat + d) : PcAdvanced d s t ∧ ChangesOnly (writeSet s i) s t :=
  ⟨pcAdvanced_of_exec h hd, exec_changesOnly h⟩

/-- RET goes on two past the address in the slot below SP (41_control_flow.md R121). -/
theorem toNat_pc_of_ret {s t : State} {a : Word} (h : exec .ret s = .next t) (ha : s.stack[s.sp.val - 1]? = some a)
    (hfits : a.toNat + 2 < 0x10000) : t.pc.toNat = a.toNat + 2 := by
  rw [toNat_exec_pc h, nextPc, ha, Option.getD_some, Nat.mod_eq_of_lt hfits]

theorem toNat_pc_of_call {nnn : BitVec 12} {s t : State} (h : exec (.call nnn) s = .next t) : t.pc.toNat = nnn.toNat := by
  rw [toNat_exec_pc h, nextPc]
  omega

end Sys2Proof.Machine
end

section
namespace Sys2Proof
open Sys2Proof.Machine

/-- Settles O31: the pop reads slot SP - 1 and lowers SP, no more (`exec_ret_of_runs`); the frame keeps the slot. -/
theorem returnResumesAfterTheCall : Obligations.ReturnResumesAfterTheCall := by
  refine ⟨encodedAs_of_encode rfl, fun s => ⟨fun k hk => ?_, exec_ret_of_empty⟩⟩
  have hnext := exec_ret_of_runs (s := s) (by rw [RunsNormally, hk]; exact k.succ_pos)
  have hslot : s.sp.val - 1 = k := by rw [hk, Nat.add_sub_cancel]
  exact ⟨_, hnext, hslot, fun a ha => toNat_pc_of_ret hnext (hslot ▸ ha), exec_changesOnly hnext⟩

/-- Settles O32: the push writes PC to slot SP and raises SP, no more (`exec_call_of_runs`). -/
theorem callPushesItsOwnAddress : Obligations.CallPushesItsOwnAddress := by
  intro nnn
  refine ⟨encodedAs_of_wordNnn (op := 0x2) rfl (by decide), fun s => ⟨fun hsp => ?_, exec_call_of_full⟩⟩
  have hnext := exec_call_of_runs (nnn := nnn) hsp
  exact ⟨_, hnext, Vector.getElem?_set_self hsp, rfl, toNat_pc_of_call hnext, exec_changesOnly hnext⟩

/-- Settles O33: RET pops the slot that CALL pushed, where the subroutine left stack and SP as it found them. -/
theorem callThenReturnRestoresPcAndSp : Obligations.CallThenReturnRestoresPcAndSp := by
  intro nnn s hsp hpc
  refine ⟨_, exec_call_of_runs (nnn := nnn) hsp, fun t' hstack hsp' => ?_⟩
  have hval : t'.sp.val = s.sp.val + 1 := by rw [hsp']; rfl
  have hnext := exec_ret_of_runs (s := t') (by rw [RunsNormally, hval]; exact Nat.succ_pos _)
  have htop : t'.stack[t'.sp.val - 1]? = some s.pc := by
    rw [hstack, hval]
    exact Vector.getElem?_set_self hsp
  refine ⟨_, hnext, toNat_pc_of_ret hnext htop (by omega), Fin.ext ?_⟩
  change t'.sp.val - 1 = s.sp.val
  rw [hval, Nat.add_sub_cancel]

/-- Settles O35: the sum of 12 and 8 bits fits in 16. -/
theorem computedJumpAddsV0Exactly : Obligations.ComputedJumpAddsV0Exactly := by
  intro nnn
  refine ⟨encodedAs_of_wordNnn (op := 0xB) rfl (by decide), fun s => ?_⟩
  exact ⟨_, exec_jpV0 nnn s, s.toNat_jump_pc (by omega), s.changesOnly_jump _⟩

end Sys2Proof
end

/-! ### Arithmetic with a flag, and the random byte (42_alu.md R147-R151, R155) -/

section
namespace Sys2Proof.Machine

theorem exec_addReg (x y : Reg) (s : State) :
    exec (.addReg x y) s =
      .next (s.setResultAndFlag x (s.getV x + s.getV y) (carryFlag (s.getV x) (s.getV y))).seq := rfl

theorem exec_sub (x y : Reg) (s : State) :
    exec (.sub x y) s =
      .next (s.setResultAndFlag x (s.getV x - s.getV y) (notBorrowFlag (s.getV x) (s.getV y))).seq := rfl

theorem exec_subn (x y : Reg) (s : State) :
    exec (.subn x y) s =
      .next (s.setResultAndFlag x (s.getV y - s.getV x) (notBorrowFlag (s.getV y) (s.getV x))).seq := rfl

theorem exec_shr (x y : Reg) (s : State) :
    exec (.shr x y) s = .next (s.setResultAndFlag x (s.getV x >>> 1) (shiftedOutRight (s.getV x))).seq := rfl

theorem exec_shl (x y : Reg) (s : State) :
    exec (.shl x y) s = .next (s.setResultAndFlag x (s.getV x <<< 1) (shiftedOutLeft (s.getV x))).seq := rfl

theorem exec_rnd (x : Reg) (kk : Byte) (s : State) :
    exec (.rnd x kk) s = .next (s.drawByte.2.setV x (Config.rand s.draws &&& kk)).seq := rfl

theorem carryFlag_eq (a b : Byte) : carryFlag a b = if a.toNat + b.toNat > 255 then 1 else 0 := by
  simp [carryFlag, flagByte]

theorem notBorrowFlag_eq (a b : Byte) : notBorrowFlag a b = if b.toNat > a.toNat then 0 else 1 := by
  unfold notBorrowFlag flagByte
  split_ifs <;> simp_all

theorem toNat_sub_eq_emod (a b : Byte) : ((a - b).toNat : Int) = ((a.toNat : Int) - b.toNat) % 256 := by
  rw [BitVec.toNat_sub]
  omega

theorem toNat_flagByte (c : Bool) : (flagByte c).toNat = c.toNat := by cases c <;> rfl

theorem toNat_shiftedOutRight (a : Byte) : (shiftedOutRight a).toNat = a.toNat % 2 := by
  rw [shiftedOutRight, toNat_flagByte, BitVec.getLsbD, Nat.toNat_testBit, Nat.pow_zero, Nat.div_one]

theorem toNat_shiftedOutLeft (a : Byte) : (shiftedOutLeft a).toNat = a.toNat / 128 := by
  rw [shiftedOutLeft, toNat_flagByte, BitVec.getLsbD, Nat.toNat_testBit]
  omega

theorem State.getV_setV_seq (s : State) (x : Reg) (b : Byte) : (s.setV x b).seq.getV x = b :=
  s.getV_setV_same x b

/-- What completes by writing a result and its flag and going on at A + 2: VF holds the flag, also where VF is the destination
(42_alu.md R140), and any other destination holds the result. -/
theorem exists_next_of_setResultAndFlag_seq {o : Result} {s : State} {x : Reg} {b f : Byte} (Q R : Byte → Prop)
    (ho : o = .next (s.setResultAndFlag x b f).seq) (hb : Q b) (hf : R f) :
    ∃ t, o = .next t ∧ (x ≠ VF → Q (t.getV x)) ∧ R (t.getV VF) ∧ PcAdvanced 2 s t ∧ ChangesOnly [.v x, .v VF, .pc] s t := by
  refine ⟨_, ho, fun hx => ?_, ?_, pcAdvanced_seq rfl, s.changesOnly_setResultAndFlag_seq x b f⟩
  · rwa [State.getV_congr (State.seq_v _), State.getV_setResultAndFlag, if_neg hx, if_pos rfl]
  · rwa [s.getV_VF_setResultAndFlag_seq x b f]

end Sys2Proof.Machine
end

section
namespace Sys2Proof
open Sys2Proof.Machine

/-- Settles O40: the sum of bytes is modulo 256, and the flag is the carry of the unwrapped one. -/
theorem addSetsSumAndCarry : Obligations.AddSetsSumAndCarry := by
  intro x y
  refine ⟨encodedAs_of_pattern (op := 0x8) (n := 0x4) rfl (by decide) rfl, fun s => ?_⟩
  exact exists_next_of_setResultAndFlag_seq (fun b => b.toNat = ((s.getV x).toNat + (s.getV y).toNat) % 256)
    (· = if (s.getV x).toNat + (s.getV y).toNat > 255 then 1 else 0)
    (exec_addReg x y s) (BitVec.toNat_add ..) (carryFlag_eq ..)

/-- Settles O41: both are one difference modulo 256 and its NOT borrow, the operands one way and the other. -/
theorem subtractionsSetDifferenceAndNotBorrow : Obligations.SubtractionsSetDifferenceAndNotBorrow := by
  intro x y
  refine ⟨encodedAs_of_pattern (op := 0x8) (n := 0x5) rfl (by decide) rfl,
    encodedAs_of_pattern (op := 0x8) (n := 0x7) rfl (by decide) rfl, fun s => ⟨?_, ?_⟩⟩
  · exact exists_next_of_setResultAndFlag_seq (fun b => (b.toNat : Int) = ((s.getV x).toNat - (s.getV y).toNat) % 256)
      (· = if (s.getV y).toNat > (s.getV x).toNat then 0 else 1)
      (exec_sub x y s) (toNat_sub_eq_emod ..) (notBorrowFlag_eq ..)
  · exact exists_next_of_setResultAndFlag_seq (fun b => (b.toNat : Int) = ((s.getV y).toNat - (s.getV x).toNat) % 256)
      (· = if (s.getV x).toNat > (s.getV y).toNat then 0 else 1)
      (exec_subn x y s) (toNat_sub_eq_emod ..) (notBorrowFlag_eq ..)

/-- Settles O42: a shift by one halves, or doubles modulo 256, and the bit shifted out is the remainder, or the top bit. -/
theorem shiftsSetResultAndShiftedOutBit : Obligations.ShiftsSetResultAndShiftedOutBit := by
  intro x y
  refine ⟨encodedAs_of_pattern (op := 0x8) (n := 0x6) rfl (by decide) rfl,
    encodedAs_of_pattern (op := 0x8) (n := 0xE) rfl (by decide) rfl, fun s => ⟨?_, ?_⟩⟩
  · have hhalf : (s.getV x >>> 1).toNat = (s.getV x).toNat / 2 := by
      rw [BitVec.toNat_ushiftRight, Nat.shiftRight_eq_div_pow, Nat.pow_one]
    exact exists_next_of_setResultAndFlag_seq (fun b => b.toNat = (s.getV x).toNat / 2)
      (fun f => f.toNat = (s.getV x).toNat % 2) (exec_shr x y s) hhalf (toNat_shiftedOutRight _)
  · have hdouble : (s.getV x <<< 1).toNat = (s.getV x).toNat * 2 % 256 := by
      rw [BitVec.toNat_shiftLeft, Nat.shiftLeft_eq, Nat.pow_one]
    exact exists_next_of_setResultAndFlag_seq (fun b => b.toNat = (s.getV x).toNat * 2 % 256)
      (fun f => f.toNat = (s.getV x).toNat / 128) (exec_shl x y s) hdouble (toNat_shiftedOutLeft _)

/-- Settles O43: the byte written is the draw AND kk for any value of the draw, and the draw is used up. -/
theorem randomByteIsMasked : Obligations.RandomByteIsMasked := by
  intro x kk
  refine ⟨encodedAs_of_wordXkk (op := 0xC) rfl (by decide), fun s => ?_⟩
  have hx := s.drawByte.2.getV_setV_seq x (Config.rand s.draws &&& kk)
  refine ⟨_, exec_rnd x kk s, hx, fun hkk => ?_, rfl, exec_advances_and_frames (exec_rnd x kk s) rfl⟩
  rw [hx, hkk]
  exact BitVec.and_zero

end Sys2Proof
end

/-! ### Sums into the index register (43_index_memory.md R171, R172) -/

section
namespace Sys2Proof.Machine

theorem exec_addI (x : Reg) (s : State) :
    exec (.addI x) s = .next (State.seq { s with i := BitVec.ofNat 16 (s.i.toNat + (s.getV x).toNat) }) := rfl

theorem exec_ldF (x : Reg) (s : State) :
    exec (.ldF x) s = .next (State.seq { s with i := BitVec.ofNat 16 ((s.getV x).toNat * 5) }) := rfl

end Sys2Proof.Machine
end

section
namespace Sys2Proof
open Sys2Proof.Machine

/-- Settles O45: one write of I and on to A + 2 (`exists_next_of_withI_seq`); five times a byte fits in 16 bits, a sum with I
need not. -/
theorem addIndexAndGlyphAddress : Obligations.AddIndexAndGlyphAddress := by
  intro x
  refine ⟨encodedAs_of_patternX (op := 0xF) (kk := 0x1E) rfl (by decide) rfl,
    encodedAs_of_patternX (op := 0xF) (kk := 0x29) rfl (by decide) rfl, fun s => ⟨?_, ?_⟩⟩
  · exact exists_next_of_withI_seq (exec_addI x s) fun _ ht => ht ▸ BitVec.toNat_ofNat ..
  · have hfits : (BitVec.ofNat 16 ((s.getV x).toNat * 5)).toNat = (s.getV x).toNat * 5 := by rw [BitVec.toNat_ofNat]; omega
    exact exists_next_of_withI_seq (exec_ldF x s) fun _ ht => ht ▸ hfits

end Sys2Proof
end

/-! ### Memory instructions (43_index_memory.md R173-R176, 20_memory.md R53, R64) -/

section
namespace Sys2Proof.Machine

theorem State.getElem_regsUpTo (s : State) {x k : Reg} (hk : k ≤ x) :
    (s.regsUpTo x)[k.val]'(by rw [s.length_regsUpTo]; exact Nat.lt_succ_of_le hk) = s.getV k := by
  have h := s.getElem?_regsUpTo x k
  rwa [if_pos hk, List.getElem?_eq_some_iff, exists_prop_of_true] at h

/-- Fx33 stores the three digits (43_index_memory.md R173). -/
theorem read_of_ldB {x : Reg} {s t : State} (h : exec (.ldB x) s = .next t) {k : Nat} (hk : k < 3) :
    t.mem.read (s.i.toNat + k) = (bcdDigits (s.getV x))[k] :=
  of_next (P := fun t => t.mem.read (s.i.toNat + k) = _) (exec_ldB_of_runs (runsNormally_of_next h))
    (Memory.read_writeBytes_inside _ _ hk) h

/-- Fx55 stores register `k` at I + k (43_index_memory.md R174). -/
theorem read_of_ldMemVx {x k : Reg} {s t : State} (h : exec (.ldMemVx x) s = .next t) (hk : k ≤ x) :
    t.mem.read (s.i.toNat + k.val) = s.getV k := by
  have hlen : k.val < (s.regsUpTo x).length := by rw [s.length_regsUpTo]; exact Nat.lt_succ_of_le hk
  rw [← s.getElem_regsUpTo hk]
  exact of_next (P := fun t => t.mem.read (s.i.toNat + k.val) = _) (exec_ldMemVx_of_runs (runsNormally_of_next h))
    (Memory.read_writeBytes_inside _ _ hlen) h

/-- Fx65 loads register `k` from I + k and leaves those above x (43_index_memory.md R175). -/
theorem getV_of_ldVxMem {x : Reg} {s t : State} (h : exec (.ldVxMem x) s = .next t) (k : Reg) :
    t.getV k = if k ≤ x then s.mem.read (s.i.toNat + k.val) else s.getV k := by
  have hregs : t.v = writeRegs s.v 0 (s.mem.readBytes s.i.toNat (x.val + 1)) :=
    of_next (P := fun t => t.v = _) (exec_ldVxMem_of_runs (runsNormally_of_next h)) rfl h
  rw [State.getV, hregs, getElem?_writeRegs _ _ _ _ k.isLt, Memory.length_readBytes]
  by_cases hk : k ≤ x
  · have hlt : k.val < x.val + 1 := Nat.lt_succ_of_le hk
    rw [if_pos ⟨k.val.zero_le, by omega⟩, if_pos hk, List.getD_eq_getElem?_getD, Memory.getElem?_readBytes, Nat.sub_zero,
      if_pos hlt, Option.getD_some]
  · have hgt : ¬k.val < 0 + (x.val + 1) := by rw [Fin.le_def] at hk; omega
    rw [if_neg fun h => hgt h.2, if_neg hk, State.getV]

theorem toNat_wordOfBytes (hi lo : Byte) : (wordOfBytes hi lo).toNat = hi.toNat * 256 + lo.toNat := by
  rw [wordOfBytes, BitVec.toNat_ofNat]
  omega

theorem i_of_ldMemVx {x : Reg} {s t : State} (h : exec (.ldMemVx x) s = .next t) : t.i = s.i :=
  exec_changesOnly h .i (by simp [writeSet, memParts])

end Sys2Proof.Machine
end

section
namespace Sys2Proof
open Sys2Proof.Machine

/-- Settles O46: the three digits, each below 256, are read back where they were stored (`read_of_ldB`). -/
theorem decimalDigitsAreStored : Obligations.DecimalDigitsAreStored := by
  intro x
  refine ⟨encodedAs_of_patternX (op := 0xF) (kk := 0x33) rfl (by decide) rfl, fun s hrange => ?_⟩
  have hnext := exec_ldB_of_runs (x := x) hrange
  have hdigit {n : Nat} (hn : n < 256) : (BitVec.ofNat 8 n).toNat = n := by
    rw [BitVec.toNat_ofNat, Nat.mod_eq_of_lt hn]
  refine ⟨_, hnext, ?_, ?_, ?_, exec_advances_and_frames hnext rfl⟩
  · exact (congrArg _ (read_of_ldB hnext (k := 0) (by decide))).trans (hdigit (by omega))
  · exact (congrArg _ (read_of_ldB hnext (k := 1) (by decide))).trans (hdigit (by omega))
  · exact (congrArg _ (read_of_ldB hnext (k := 2) (by decide))).trans (hdigit (by omega))

/-- Settles O47: what a store leaves in memory (`read_of_ldMemVx`), what a load leaves in the registers (`getV_of_ldVxMem`). -/
theorem registersAreStoredAndLoaded : Obligations.RegistersAreStoredAndLoaded := by
  intro x
  refine ⟨encodedAs_of_patternX (op := 0xF) (kk := 0x55) rfl (by decide) rfl,
    encodedAs_of_patternX (op := 0xF) (kk := 0x65) rfl (by decide) rfl, fun s hrange => ⟨?_, ?_⟩⟩
  · have hnext := exec_ldMemVx_of_runs (x := x) hrange
    exact ⟨_, hnext, fun k => read_of_ldMemVx hnext, exec_advances_and_frames hnext rfl⟩
  · have hnext := exec_ldVxMem_of_runs (x := x) hrange
    exact ⟨_, hnext, fun k hk => (getV_of_ldVxMem hnext k).trans (if_pos hk), exec_advances_and_frames hnext rfl⟩

/-- Settles O48: each clause but the last is a line of R230's table (`Fails`); a draw of no rows passes its check. -/
theorem accessPastMemoryFaults : Obligations.AccessPastMemoryFaults :=
  fun x y n _ => ⟨fun h => (Fails.ldB x h).exec_eq, fun h => (Fails.ldMemVx x h).exec_eq,
    fun h => (Fails.ldVxMem x h).exec_eq, fun hn h => (Fails.drw x y n hn h).exec_eq,
    fun hn => RunsNormally.exists_next (i := .drw x y n) (.inl hn)⟩

/-- Settles O49: a load reads at I + k, where the store of the same I and x put register `k`. -/
theorem storeThenLoadRestoresRegisters : Obligations.StoreThenLoadRestoresRegisters := by
  intro x s t h u hmem hi
  have hui : u.i = s.i := hi.trans (i_of_ldMemVx h)
  have hrun : RunsNormally u (.ldVxMem x) := by
    rw [RunsNormally, hui]
    exact runsNormally_of_next h
  obtain ⟨w, hw⟩ := hrun.exists_next
  refine ⟨w, hw, fun k hk => ?_, fun k hk => ?_⟩
  · rw [getV_of_ldVxMem hw, if_pos hk, hmem, hui, read_of_ldMemVx h hk]
  · rw [getV_of_ldVxMem hw, if_neg (not_le.2 hk)]

/-- Settles O50: both bytes of the fetch are bytes of the store, which was in range, so the fetch is too. -/
theorem storedBytesAreFetched : Obligations.StoredBytesAreFetched := by
  intro x k k' s t u h hk' hx hmem hpc
  have hrange : s.i.toNat + x.val ≤ 0xFFF := runsNormally_of_next h
  have hkx : k.val + 1 ≤ x.val := hk' ▸ hx
  refine ⟨_, (fetch_eq u).trans (if_pos (by omega)), ?_⟩
  rw [toNat_wordOfBytes, hmem, hpc, read_of_ldMemVx h (Fin.le_def.2 (by omega)), Nat.add_assoc, ← hk', read_of_ldMemVx h hx]

end Sys2Proof
end

/-! ### Drawing (44_display.md R191-R195) -/

section
namespace Sys2Proof.Machine

theorem SpriteCovers.mem_iff {s : State} {x y : Reg} {n : BitVec 4} {c : Fin 64} {r : Fin 32} :
    SpriteCovers s x y n c r ↔ (c, r) ∈ s.spriteCover x y n := (s.mem_spriteCover x y n c r).symm

theorem eq_drawn_of_drw {x y : Reg} {n : BitVec 4} {s t : State} (h : exec (.drw x y n) s = .next t) :
    t = (s.drawn x y n).seq :=
  of_next (P := (· = (s.drawn x y n).seq)) (exec_drw_of_runs (runsNormally_of_next h)) rfl h

theorem getPixel_drawn (s : State) (x y : Reg) (n : BitVec 4) (c : Fin 64) (r : Fin 32) :
    getPixel (s.drawn x y n).fb c r = if (c, r) ∈ s.spriteCover x y n then !getPixel s.fb c r else getPixel s.fb c r :=
  getPixel_drawPixels (s.nodup_spriteCover x y n) s.fb false c r

/-- A covered pixel flips (44_display.md R191). -/
theorem getPixel_drawn_covered {s : State} {x y : Reg} {n : BitVec 4} {c : Fin 64} {r : Fin 32}
    (h : SpriteCovers s x y n c r) : getPixel (s.drawn x y n).fb c r = !getPixel s.fb c r := by
  rw [getPixel_drawn, if_pos (SpriteCovers.mem_iff.1 h)]

/-- Every other pixel stays. -/
theorem getPixel_drawn_uncovered {s : State} {x y : Reg} {n : BitVec 4} {c : Fin 64} {r : Fin 32}
    (h : ¬SpriteCovers s x y n c r) : getPixel (s.drawn x y n).fb c r = getPixel s.fb c r := by
  rw [getPixel_drawn, if_neg fun hmem => h (SpriteCovers.mem_iff.2 hmem)]

theorem collision_iff (s : State) (x y : Reg) (n : BitVec 4) :
    (drawPixels (s.spriteCover x y n) (s.fb, false)).2 = true ↔
      ∃ c r, SpriteCovers s x y n c r ∧ getPixel s.fb c r = true := by
  simp only [collision_drawPixels (s.nodup_spriteCover x y n), SpriteCovers.mem_iff, Bool.false_eq_true, false_or]

/-- VF is 1 after a draw that met a set pixel (44_display.md R194). -/
theorem getV_VF_drawn_of_collision {s : State} {x y : Reg} {n : BitVec 4}
    (h : ∃ c r, SpriteCovers s x y n c r ∧ getPixel s.fb c r = true) : (s.drawn x y n).seq.getV VF = 1 := by
  rw [State.getV_VF_drawn_seq, (collision_iff s x y n).2 h]
  rfl

/-- VF is 0 after a draw that met none (44_display.md R194). -/
theorem getV_VF_drawn_of_no_collision {s : State} {x y : Reg} {n : BitVec 4}
    (h : ¬∃ c r, SpriteCovers s x y n c r ∧ getPixel s.fb c r = true) : (s.drawn x y n).seq.getV VF = 0 := by
  rw [State.getV_VF_drawn_seq, Bool.eq_false_iff.2 (mt (collision_iff s x y n).1 h)]
  rfl

end Sys2Proof.Machine
end

section
namespace Sys2Proof
open Sys2Proof.Machine

/-- Settles O52: the draw flips the covered pixels one by one, none of them twice, so each of them once. -/
theorem drawXorsTheSprite : Obligations.DrawXorsTheSprite := by
  intro x y n
  refine ⟨encodedAs_of_wordXyn (op := 0xD) rfl (by decide), fun s hrun => ?_⟩
  have hnext : exec (.drw x y n) s = .next (s.drawn x y n).seq := exec_drw_of_runs hrun
  refine ⟨_, hnext, fun _ _ => getPixel_drawn_covered, fun _ _ => getPixel_drawn_uncovered, getV_VF_drawn_of_collision,
    getV_VF_drawn_of_no_collision, rfl, pcAdvanced_of_exec hnext rfl, (exec_changesOnly hnext).mono ?_⟩
  refine List.append_subset.2 ⟨fun p hp => ?_, List.subset_append_right ..⟩
  obtain ⟨⟨c, r⟩, -, rfl⟩ := List.mem_map.1 hp
  exact List.mem_append_left _ (pixel_mem_allPixels c r)

/-- Settles O53: with V put back the second draw covers the same pixels. It flips each of them back, and meets a set pixel
exactly where the first draw set one that was 0. -/
theorem drawingTwiceRestoresTheFramebuffer : Obligations.DrawingTwiceRestoresTheFramebuffer := by
  intro x y n s t h
  cases eq_drawn_of_drw h
  have hrun : RunsNormally s (.drw x y n) := runsNormally_of_next h
  have hcovers (c : Fin 64) (r : Fin 32) :
      SpriteCovers { (s.drawn x y n).seq with v := s.v } x y n c r ↔ SpriteCovers s x y n c r := Iff.rfl
  have hset {c : Fin 64} {r : Fin 32} (hc : SpriteCovers s x y n c r) :
      getPixel (s.drawn x y n).fb c r = true ↔ getPixel s.fb c r = false := by
    rw [getPixel_drawn_covered hc, Bool.not_eq_true']
  refine ⟨_, exec_drw_of_runs (s := { (s.drawn x y n).seq with v := s.v }) hrun, fun c r => ?_, ?_, fun hnone => ?_⟩
  · by_cases hc : SpriteCovers s x y n c r
    · have htwice := getPixel_drawn_covered ((hcovers c r).2 hc)
      exact htwice.trans ((congrArg _ (getPixel_drawn_covered hc)).trans (Bool.not_not _))
    · have htwice := getPixel_drawn_uncovered (mt (hcovers c r).1 hc)
      exact htwice.trans (getPixel_drawn_uncovered hc)
  · rintro ⟨c, r, hc, hoff⟩
    exact getV_VF_drawn_of_collision ⟨c, r, (hcovers c r).2 hc, (hset hc).2 hoff⟩
  · refine getV_VF_drawn_of_no_collision ?_
    rintro ⟨c, r, hc, hon⟩
    exact hnone ⟨c, r, (hcovers c r).1 hc, (hset ((hcovers c r).1 hc)).1 hon⟩

/-- The reset state with every pixel set, so that a first draw collides with all it covers and a second with nothing. -/
def allPixelsSet : State := { State.reset with fb := Vector.replicate 64 (Vector.replicate 32 true) }

theorem getPixel_allPixelsSet (c : Fin 64) (r : Fin 32) : getPixel allPixelsSet.fb c r = true := by
  simp [getPixel, allPixelsSet]

/-- Refutes O54: draw the top row of the glyph of 0 at (0, 0) twice where every pixel is set. The first draw clears the four
pixels it covers, the second sets them and by O53 reports no collision. -/
theorem not_secondDrawReportsCollisionForAnySetBit : ¬Obligations.SecondDrawReportsCollisionForAnySetBit := by
  intro h
  have hrun : RunsNormally allPixelsSet (.drw 0 0 1) := .inr (by decide)
  obtain ⟨t, ht⟩ := hrun.exists_next
  obtain ⟨u, hu, -, -, hzero⟩ := drawingTwiceRestoresTheFramebuffer 0 0 1 allPixelsSet t ht
  have hcovers : SpriteCovers allPixelsSet 0 0 1 0 0 := ⟨0, by decide, 0, by decide, by decide⟩
  have hone : u.getV VF = 1 := h 0 0 1 allPixelsSet t u ht hu ⟨0, 0, hcovers⟩
  have hnone : ¬∃ c r, SpriteCovers allPixelsSet 0 0 1 c r ∧ getPixel allPixelsSet.fb c r = false := by
    rintro ⟨c, r, -, hoff⟩
    exact Bool.false_ne_true (hoff.symm.trans (getPixel_allPixelsSet c r))
  exact absurd ((hzero hnone).symm.trans hone) (by decide)

end Sys2Proof
end

/-! ### Keys and timers (45_input_timers.md R210-R216) -/

section
namespace Sys2Proof.Machine

theorem exec_ldDTVx (x : Reg) (s : State) : exec (.ldDTVx x) s = .next (State.seq { s with dt := s.getV x }) := rfl

theorem exec_ldSTVx (x : Reg) (s : State) : exec (.ldSTVx x) s = .next (State.seq { s with st := s.getV x }) := rfl

theorem nextPc_skp {x : Reg} {s : State} {down : Bool} (h : s.key[(s.getV x).toNat]? = some down) :
    nextPc s (.skp x) = s.pc.toNat + if down then 4 else 2 := by
  rw [nextPc, skipTarget, h]
  cases down <;> rfl

theorem nextPc_sknp {x : Reg} {s : State} {down : Bool} (h : s.key[(s.getV x).toNat]? = some down) :
    nextPc s (.sknp x) = s.pc.toNat + if down then 2 else 4 := by
  rw [nextPc, skipTarget, h]
  cases down <;> rfl

/-- `n` ticks count the delay timer down by `n`, to 0 and no further (45_input_timers.md R214). -/
theorem State.toNat_iterate_tick_dt (s : State) (n : Nat) : (State.tick^[n] s).dt.toNat = s.dt.toNat - n := by
  induction n with
  | zero => rfl
  | succ n ih => rw [Function.iterate_succ_apply', State.toNat_tick_dt, ih, Nat.sub_sub]

/-- `n` ticks count the sound timer down by `n`, to 0 and no further (45_input_timers.md R215). -/
theorem State.toNat_iterate_tick_st (s : State) (n : Nat) : (State.tick^[n] s).st.toNat = s.st.toNat - n := by
  induction n with
  | zero => rfl
  | succ n ih => rw [Function.iterate_succ_apply', State.toNat_tick_st, ih, Nat.sub_sub]

end Sys2Proof.Machine
end

section
namespace Sys2Proof
open Sys2Proof.Machine

/-- Settles O55: where the key exists both are one conditional skip, on its state and on the negation; where it does not both
raise the one reason (`exec_skp_of_no_key`). -/
theorem keySkipsTestTheKey : Obligations.KeySkipsTestTheKey := by
  intro x
  refine ⟨encodedAs_of_patternX (op := 0xE) (kk := 0x9E) rfl (by decide) rfl,
    encodedAs_of_patternX (op := 0xE) (kk := 0xA1) rfl (by decide) rfl, fun s => ⟨fun down hkey => ⟨?_, ?_⟩, fun hno => ?_⟩⟩
  · exact ⟨_, exec_skp hkey, exec_advances_and_frames (exec_skp hkey) (nextPc_skp hkey)⟩
  · exact ⟨_, exec_sknp hkey, exec_advances_and_frames (exec_sknp hkey) (nextPc_sknp hkey)⟩
  · exact ⟨exec_skp_of_no_key hno, exec_sknp_of_no_key hno⟩

/-- Settles O56: the search for the lowest key finds none, and execute is the kind Stay, or finds `k`, which fits in a byte. -/
theorem keyWaitStaysOrTakesTheLowestKey : Obligations.KeyWaitStaysOrTakesTheLowestKey := by
  intro x
  refine ⟨encodedAs_of_patternX (op := 0xF) (kk := 0x0A) rfl (by decide) rfl, fun s =>
    ⟨exec_ldVxK_of_up x, fun w hf hw hdecode hup => ?_, fun k hk hlow => ?_⟩⟩
  · rw [step_of_decode hf hw hdecode, exec_ldVxK_of_up x hup]
    rfl
  · have hfits : (BitVec.ofNat 8 k.val).toNat = k.val := by rw [BitVec.toNat_ofNat]; omega
    exact exists_next_of_setV_seq (exec_ldVxK_of_down x hk hlow) fun _ ht => ht ▸ hfits

/-- Settles O58: each writes its timer and goes on at A + 2; the ticks then count the new value down. -/
theorem timersAreSetThenTicked : Obligations.TimersAreSetThenTicked := by
  intro x
  refine ⟨encodedAs_of_patternX (op := 0xF) (kk := 0x15) rfl (by decide) rfl,
    encodedAs_of_patternX (op := 0xF) (kk := 0x18) rfl (by decide) rfl, fun s => ⟨?_, ?_⟩⟩
  · exact ⟨_, exec_ldDTVx x s, rfl, State.toNat_iterate_tick_dt _, exec_advances_and_frames (exec_ldDTVx x s) rfl⟩
  · exact ⟨_, exec_ldSTVx x s, rfl, State.toNat_iterate_tick_st _, rfl, exec_advances_and_frames (exec_ldSTVx x s) rfl⟩

end Sys2Proof
end
